-- ==== Sys2Proof/Word.lean ====
section
/-!
DEFINITION. The word types of the hardware (00_scope.md R4; 30_encoding.md R61): what the spec
treats as bits, and nothing else.
-/

namespace Sys2Proof

/-- A memory byte, or the contents of a general register or timer (R10, R40). -/
abbrev Byte := BitVec 8

/-- A 16-bit value: an instruction word, `pc`, `I`, a call-stack entry, a fault's `info`
(R12, R13, R14, R23, R60). -/
abbrev Word := BitVec 16

/-- A 4-bit field of an instruction word, and so a register number (R10, R61). -/
abbrev Nibble := BitVec 4

/-- The 12-bit address immediate `nnn` (R61). -/
abbrev Addr := BitVec 12

/-- The high byte of a word: the byte at the lower address (20_memory.md R45). -/
abbrev highByte (w : Word) : Byte := w.extractLsb' 8 8

/-- The low byte of a word: the byte at the higher address (20_memory.md R45). -/
abbrev lowByte (w : Word) : Byte := w.extractLsb' 0 8

end Sys2Proof
end

