-- ==== Sys2Proof/Syntax.lean ====
section
/-!
DEFINITION. The instructions: one constructor per row of the opcode map (30_encoding.md R64), in
its order, each carrying exactly the fields its format has (R62). `SHR` and `SHL` carry the `y`
field although it is ignored (note under R64), so that encoding and decoding lose no bit.
-/

namespace Sys2Proof

inductive Instr where
  /-- 0000 (R90). -/
  | nop
  /-- 00E0 (R140). -/
  | cls
  /-- 00EE (R91). -/
  | ret
  /-- 1nnn (R92). -/
  | jmp (nnn : Addr)
  /-- 2nnn (R93). -/
  | call (nnn : Addr)
  /-- 3xkk (R100). -/
  | sei (x : Nibble) (kk : Byte)
  /-- 4xkk (R101). -/
  | snei (x : Nibble) (kk : Byte)
  /-- 5xy0 (R102). -/
  | ser (x y : Nibble)
  /-- 6xkk (R110). -/
  | ldi (x : Nibble) (kk : Byte)
  /-- 7xkk (R111). -/
  | addi (x : Nibble) (kk : Byte)
  /-- 8xy0 (R112). -/
  | mov (x y : Nibble)
  /-- 8xy1 (R113). -/
  | or (x y : Nibble)
  /-- 8xy2 (R114). -/
  | and (x y : Nibble)
  /-- 8xy3 (R115). -/
  | xor (x y : Nibble)
  /-- 8xy4 (R116). -/
  | add (x y : Nibble)
  /-- 8xy5 (R117). -/
  | sub (x y : Nibble)
  /-- 8xy6 (R118); `y` is ignored. -/
  | shr (x y : Nibble)
  /-- 8xy7 (R119). -/
  | subn (x y : Nibble)
  /-- 8xyE (R120); `y` is ignored. -/
  | shl (x y : Nibble)
  /-- 9xy0 (R103). -/
  | sner (x y : Nibble)
  /-- Annn (R130). -/
  | ldix (nnn : Addr)
  /-- Bnnn (R94). -/
  | jmpv0 (nnn : Addr)
  /-- Cxkk (R121). -/
  | rnd (x : Nibble) (kk : Byte)
  /-- Dxyn (R141). -/
  | drw (x y n : Nibble)
  /-- Ex9E (R150). -/
  | skp (x : Nibble)
  /-- ExA1 (R151). -/
  | sknp (x : Nibble)
  /-- Fx07 (R160). -/
  | lddt (x : Nibble)
  /-- Fx0A (R152). -/
  | waitk (x : Nibble)
  /-- Fx15 (R161). -/
  | stdt (x : Nibble)
  /-- Fx18 (R162). -/
  | stst (x : Nibble)
  /-- Fx1E (R131). -/
  | addix (x : Nibble)
  /-- Fx29 (R132). -/
  | font (x : Nibble)
  /-- Fx33 (R133). -/
  | bcd (x : Nibble)
  /-- Fx55 (R134). -/
  | stm (x : Nibble)
  /-- Fx65 (R135). -/
  | ldm (x : Nibble)
  deriving DecidableEq, Repr

end Sys2Proof
end

