-- ==== Sys2Proof/Decode.lean ====
section
/-!
DEFINITION. The opcode map as a table, the decoder (30_encoding.md R65), total on any bytes and
rejecting by name, and the encoder, both written from the formats of R62 and the map of R64.
-/

namespace Sys2Proof

/-- Why some bytes are no instruction. -/
inductive DecodeError where
  /-- The word matches none of the 35 patterns (R66); the engine raises `UnrecognizedOpcode`. -/
  | unrecognized (w : Word)
  /-- Fewer than the two bytes every instruction has (R60); a fetch never meets this. -/
  | truncated
  deriving DecidableEq, Repr

/-! ### Fields (R61) -/

def opOf (w : Word) : Nibble := w.extractLsb' 12 4
def xOf (w : Word) : Nibble := w.extractLsb' 8 4
def yOf (w : Word) : Nibble := w.extractLsb' 4 4
def nOf (w : Word) : Nibble := w.extractLsb' 0 4
def kkOf (w : Word) : Byte := w.extractLsb' 0 8
def nnnOf (w : Word) : Addr := w.extractLsb' 0 12

/-- The big-endian word of two bytes: `{hi, lo}` (20_memory.md R45). -/
def wordOfBytes (hi lo : Byte) : Word := BitVec.ofNat 16 (hi.toNat * 256 + lo.toNat)

/-! ### The decoder (R65) -/

/-- Group 8 of the map: the minor opcode is `n`. -/
def decodeAlu (w : Word) : Except DecodeError Instr :=
  let x := xOf w
  let y := yOf w
  match nOf w with
  | 0x0#4 => .ok (.mov x y)
  | 0x1#4 => .ok (.or x y)
  | 0x2#4 => .ok (.and x y)
  | 0x3#4 => .ok (.xor x y)
  | 0x4#4 => .ok (.add x y)
  | 0x5#4 => .ok (.sub x y)
  | 0x6#4 => .ok (.shr x y)
  | 0x7#4 => .ok (.subn x y)
  | 0xE#4 => .ok (.shl x y)
  | _ => .error (.unrecognized w)

/-- Group F of the map: the minor opcode is `kk`. -/
def decodeMisc (w : Word) : Except DecodeError Instr :=
  let x := xOf w
  match kkOf w with
  | 0x07#8 => .ok (.lddt x)
  | 0x0A#8 => .ok (.waitk x)
  | 0x15#8 => .ok (.stdt x)
  | 0x18#8 => .ok (.stst x)
  | 0x1E#8 => .ok (.addix x)
  | 0x29#8 => .ok (.font x)
  | 0x33#8 => .ok (.bcd x)
  | 0x55#8 => .ok (.stm x)
  | 0x65#8 => .ok (.ldm x)
  | _ => .error (.unrecognized w)

/-- `Decode(w)` (R65): a function of the word alone, total on all 65536 values. -/
def decodeWord (w : Word) : Except DecodeError Instr :=
  let x := xOf w
  let y := yOf w
  let kk := kkOf w
  let nnn := nnnOf w
  match opOf w with
  | 0x0#4 =>
    if w = 0x0000#16 then .ok .nop
    else if w = 0x00E0#16 then .ok .cls
    else if w = 0x00EE#16 then .ok .ret
    else .error (.unrecognized w)
  | 0x1#4 => .ok (.jmp nnn)
  | 0x2#4 => .ok (.call nnn)
  | 0x3#4 => .ok (.sei x kk)
  | 0x4#4 => .ok (.snei x kk)
  | 0x5#4 => if nOf w = 0x0#4 then .ok (.ser x y) else .error (.unrecognized w)
  | 0x6#4 => .ok (.ldi x kk)
  | 0x7#4 => .ok (.addi x kk)
  | 0x8#4 => decodeAlu w
  | 0x9#4 => if nOf w = 0x0#4 then .ok (.sner x y) else .error (.unrecognized w)
  | 0xA#4 => .ok (.ldix nnn)
  | 0xB#4 => .ok (.jmpv0 nnn)
  | 0xC#4 => .ok (.rnd x kk)
  | 0xD#4 => .ok (.drw x y (nOf w))
  | 0xE#4 =>
    if kk = 0x9E#8 then .ok (.skp x)
    else if kk = 0xA1#8 then .ok (.sknp x)
    else .error (.unrecognized w)
  | 0xF#4 => decodeMisc w
  | _ => .error (.unrecognized w)

/-- The decoder on a list of bytes: the first instruction and the bytes after it (R60, R61). -/
def decode : List Byte → Except DecodeError (Instr × List Byte)
  | hi :: lo :: rest =>
    match decodeWord (wordOfBytes hi lo) with
    | .ok i => .ok (i, rest)
    | .error e => .error e
  | _ => .error .truncated

/-! ### The encoder: one function per format (R62) -/

/-- Format A: `oooonnnnnnnnnnnn`. -/
def formatA (op : Nibble) (nnn : Addr) : Word := BitVec.ofNat 16 (op.toNat * 4096 + nnn.toNat)

/-- Formats XK and X: `ooooxxxxkkkkkkkk`; in format X the low byte is fixed. -/
def formatXK (op x : Nibble) (kk : Byte) : Word :=
  BitVec.ofNat 16 (op.toNat * 4096 + x.toNat * 256 + kk.toNat)

/-- Formats XY and XYN: `ooooxxxxyyyynnnn`; in format XY the low nibble is fixed. -/
def formatXYN (op x y n : Nibble) : Word :=
  BitVec.ofNat 16 (op.toNat * 4096 + x.toNat * 256 + y.toNat * 16 + n.toNat)

/-- The word of an instruction (R64). -/
def encodeWord : Instr → Word
  | .nop => 0x0000#16
  | .cls => 0x00E0#16
  | .ret => 0x00EE#16
  | .jmp nnn => formatA 0x1#4 nnn
  | .call nnn => formatA 0x2#4 nnn
  | .sei x kk => formatXK 0x3#4 x kk
  | .snei x kk => formatXK 0x4#4 x kk
  | .ser x y => formatXYN 0x5#4 x y 0x0#4
  | .ldi x kk => formatXK 0x6#4 x kk
  | .addi x kk => formatXK 0x7#4 x kk
  | .mov x y => formatXYN 0x8#4 x y 0x0#4
  | .or x y => formatXYN 0x8#4 x y 0x1#4
  | .and x y => formatXYN 0x8#4 x y 0x2#4
  | .xor x y => formatXYN 0x8#4 x y 0x3#4
  | .add x y => formatXYN 0x8#4 x y 0x4#4
  | .sub x y => formatXYN 0x8#4 x y 0x5#4
  | .shr x y => formatXYN 0x8#4 x y 0x6#4
  | .subn x y => formatXYN 0x8#4 x y 0x7#4
  | .shl x y => formatXYN 0x8#4 x y 0xE#4
  | .sner x y => formatXYN 0x9#4 x y 0x0#4
  | .ldix nnn => formatA 0xA#4 nnn
  | .jmpv0 nnn => formatA 0xB#4 nnn
  | .rnd x kk => formatXK 0xC#4 x kk
  | .drw x y n => formatXYN 0xD#4 x y n
  | .skp x => formatXK 0xE#4 x 0x9E#8
  | .sknp x => formatXK 0xE#4 x 0xA1#8
  | .lddt x => formatXK 0xF#4 x 0x07#8
  | .waitk x => formatXK 0xF#4 x 0x0A#8
  | .stdt x => formatXK 0xF#4 x 0x15#8
  | .stst x => formatXK 0xF#4 x 0x18#8
  | .addix x => formatXK 0xF#4 x 0x1E#8
  | .font x => formatXK 0xF#4 x 0x29#8
  | .bcd x => formatXK 0xF#4 x 0x33#8
  | .stm x => formatXK 0xF#4 x 0x55#8
  | .ldm x => formatXK 0xF#4 x 0x65#8

/-- The two bytes of an instruction as memory holds them, high byte first (R45, R60). -/
def encode (i : Instr) : List Byte := [highByte (encodeWord i), lowByte (encodeWord i)]

/-! ### The opcode map as data (R64) -/

/-- `(mask, match)` of the row an instruction belongs to: `w` matches the row iff
`w AND mask = match` (R64). -/
def rowOf : Instr → Word × Word
  | .nop => (0xFFFF#16, 0x0000#16)
  | .cls => (0xFFFF#16, 0x00E0#16)
  | .ret => (0xFFFF#16, 0x00EE#16)
  | .jmp _ => (0xF000#16, 0x1000#16)
  | .call _ => (0xF000#16, 0x2000#16)
  | .sei _ _ => (0xF000#16, 0x3000#16)
  | .snei _ _ => (0xF000#16, 0x4000#16)
  | .ser _ _ => (0xF00F#16, 0x5000#16)
  | .ldi _ _ => (0xF000#16, 0x6000#16)
  | .addi _ _ => (0xF000#16, 0x7000#16)
  | .mov _ _ => (0xF00F#16, 0x8000#16)
  | .or _ _ => (0xF00F#16, 0x8001#16)
  | .and _ _ => (0xF00F#16, 0x8002#16)
  | .xor _ _ => (0xF00F#16, 0x8003#16)
  | .add _ _ => (0xF00F#16, 0x8004#16)
  | .sub _ _ => (0xF00F#16, 0x8005#16)
  | .shr _ _ => (0xF00F#16, 0x8006#16)
  | .subn _ _ => (0xF00F#16, 0x8007#16)
  | .shl _ _ => (0xF00F#16, 0x800E#16)
  | .sner _ _ => (0xF00F#16, 0x9000#16)
  | .ldix _ => (0xF000#16, 0xA000#16)
  | .jmpv0 _ => (0xF000#16, 0xB000#16)
  | .rnd _ _ => (0xF000#16, 0xC000#16)
  | .drw _ _ _ => (0xF000#16, 0xD000#16)
  | .skp _ => (0xF0FF#16, 0xE09E#16)
  | .sknp _ => (0xF0FF#16, 0xE0A1#16)
  | .lddt _ => (0xF0FF#16, 0xF007#16)
  | .waitk _ => (0xF0FF#16, 0xF00A#16)
  | .stdt _ => (0xF0FF#16, 0xF015#16)
  | .stst _ => (0xF0FF#16, 0xF018#16)
  | .addix _ => (0xF0FF#16, 0xF01E#16)
  | .font _ => (0xF0FF#16, 0xF029#16)
  | .bcd _ => (0xF0FF#16, 0xF033#16)
  | .stm _ => (0xF0FF#16, 0xF055#16)
  | .ldm _ => (0xF0FF#16, 0xF065#16)

/-- One instruction of each row, in the map's order. -/
def rowSamples : List Instr :=
  [.nop, .cls, .ret, .jmp 0, .call 0, .sei 0 0, .snei 0 0, .ser 0 0, .ldi 0 0, .addi 0 0, .mov 0 0,
    .or 0 0, .and 0 0, .xor 0 0, .add 0 0, .sub 0 0, .shr 0 0, .subn 0 0, .shl 0 0, .sner 0 0] ++
  [.ldix 0, .jmpv0 0, .rnd 0 0, .drw 0 0 0, .skp 0, .sknp 0, .lddt 0, .waitk 0, .stdt 0, .stst 0,
    .addix 0, .font 0, .bcd 0, .stm 0, .ldm 0]

/-- The whole map: the `(mask, match)` pairs of the 35 rows (R64). -/
def opcodeMap : List (Word × Word) := rowSamples.map rowOf

/-- The word matches the row. -/
def matchesRow (w : Word) (row : Word × Word) : Bool := w &&& row.1 = row.2

/-! ### The host's view of the table -/

/-- The instruction's word from the table's numbering of bits: bits at or above `nbits` are 0. -/
def tableWord (nbits w : Nat) : Word := BitVec.ofNat 16 (w % 2 ^ nbits)

/-- What the decoder reads from a row's bits `w`, laid out in memory order. -/
def decodeTableWord (nbits w : Nat) : Option Instr :=
  match decode [highByte (tableWord nbits w), lowByte (tableWord nbits w)] with
  | .ok (i, _) => some i
  | .error _ => none

end Sys2Proof
end

