-- ==== Sys2Proof/Config.lean ====
section
/-!
DEFINITION. What is fixed for the machine: the parameters of 00_scope.md R4, and the FREE VALUES,
which are opaque constants with no body (log 2, log 4), so that no proof can see what they are.
-/

namespace Sys2Proof.Config

/-- MEM_SIZE (R4, R40): legal addresses are `0 .. memSize - 1`. -/
abbrev memSize : Nat := 4096

/-- PROGRAM_BASE (R4): where the ROM is loaded, and the reset value of `pc`. -/
abbrev programBase : Nat := 0x200

/-- FONT_SIZE (R4): the font region is `0 .. fontSize - 1`. -/
abbrev fontSize : Nat := 80

/-- GLYPH_BYTES (R4): bytes per glyph, the multiplier of `FONT` (R132). -/
abbrev glyphBytes : Nat := 5

/-- ROM_MAX (R4): the longest ROM that fits. -/
abbrev romMax : Nat := 3584

/-- NUM_KEYS (R4, R20). -/
abbrev numKeys : Nat := 16

/-- FREE VALUE: byte `a` of the parameter FONT_DATA in `State.reset` (R5, R54; log 4). -/
opaque fontByte : Nat → Byte

/-- FREE VALUE: `keys_in` of the n-th Tick that takes free inputs (R83; log 2). -/
opaque freeKeys : Nat → BitVec 16

/-- FREE VALUE: `timer_due` of the n-th Tick that takes free inputs, as one bit (R163; log 2). -/
opaque freeTimerDue : Nat → BitVec 1

/-- FREE VALUE: `rnd` of the n-th Tick that takes free inputs (R121; log 2). -/
opaque freeRnd : Nat → Byte

end Sys2Proof.Config
end

