-- ==== Sys2Proof/Machine/State.lean ====
section
/-!
DEFINITION. The state of the machine (10_state.md R10 to R26), as plain data; the host's events
(40_engine_cycle.md R80); the two reasons types of the host's interface; and `State.reset`.
-/

namespace Sys2Proof.Machine

/-- The six fault causes (60_exceptions.md R170). -/
inductive Cause where
  /-- A checked access to an address of 4096 or more (R42). -/
  | outOfBoundsAccess
  /-- The fetched word matches none of the 35 patterns (R66). -/
  | unrecognizedOpcode
  /-- `RET` with an empty stack (R91). -/
  | stackUnderflow
  /-- `CALL` with a full stack (R93). -/
  | stackOverflow
  /-- A checked access to 0x050..0x1FF (R42; log 10). -/
  | reservedRegionAccess
  /-- `SKP` or `SKNP` with a key index above 15 (R150, R151; log 15). -/
  | invalidKeyIndex
  deriving DecidableEq, Repr

/-- The run status `RUN` (10_state.md R22, R23). -/
inductive RunStatus where
  | running
  | finished
  | halted (cause : Cause) (info : Word)
  deriving DecidableEq, Repr

/-- The keypad sub-state `WAIT` (10_state.md R21). -/
inductive WaitState where
  | idle
  | awaitingKey (r : Nibble)
  deriving DecidableEq, Repr

/-- The inputs of one Tick (40_engine_cycle.md R80). -/
structure TickInput where
  keysIn : BitVec 16
  timerDue : Bool
  rnd : Byte
  deriving DecidableEq, Repr

/-- The three events of the block's interface (40_engine_cycle.md R80). -/
inductive HostEvent where
  /-- Tick(keys_in, timer_due, rnd) (R81). -/
  | tick (input : TickInput)
  /-- RenderAck (R143). -/
  | renderAck
  /-- Reset(ROM, FONT_DATA) (R190). -/
  | reset (rom font : List Byte)
  deriving DecidableEq, Repr

/-- `FB`: 32 rows of 64 one-bit cells (10_state.md R18; log 26). -/
abbrev Framebuffer := Vector (Vector Bool 64) 32

/-- The framebuffer with every cell 0. -/
def Framebuffer.blank : Framebuffer := Vector.replicate 32 (Vector.replicate 64 false)

/-- `MEM` (10_state.md R24): the parameter FONT_DATA of the last launch, and the cells that differ
from what an unlisted address reads as (`Memory.unlisted`), in canonical form (`Memory.wf`). -/
structure Memory where
  font : Vector Byte 80
  cells : List Host.Cell
  deriving DecidableEq, Repr

/-- The state: the spec's own elements first, then the model's own fields. -/
structure State where
  /-- `V[0..15]` (R10). -/
  V : Vector Byte 16
  /-- The index register (R12). -/
  I : Word
  /-- The program counter (R13). -/
  pc : Word
  /-- `STK[0..15]` (R14). -/
  stk : Vector Word 16
  /-- `SP`, 0..16 (R15). -/
  sp : Fin 17
  /-- The delay timer (R16). -/
  DT : Byte
  /-- The sound timer (R17). -/
  ST : Byte
  /-- The framebuffer (R18). -/
  fb : Framebuffer
  /-- `DIRTY` (R19). -/
  dirty : Bool
  /-- The key vector `K`, bit k for key k (R20). -/
  keys : BitVec 16
  /-- `WAIT` (R21). -/
  wait : WaitState
  /-- `RUN` (R22, R23). -/
  run : RunStatus
  /-- `MEM` (R24), with the launch's FONT_DATA (R5, R54; log 4). -/
  mem : Memory
  /-- `INSTR_COUNT` (R26; log 27). -/
  instrCount : Nat
  /-- `RENDER_COUNT` (R26; log 27). -/
  renderCount : Nat
  /-- The model's own: the random byte of the Tick being run (R25; log 3). -/
  rnd : Byte
  /-- The model's own: the `tone` output of the last Tick (R80, R164; log 3). -/
  tone : Bool
  /-- The model's own: the host events still to come, the next one first (log 1). -/
  events : List HostEvent
  /-- The model's own: how many Ticks have taken free inputs (log 2). -/
  draws : Nat
  deriving DecidableEq, Repr

/-- The reasons of the interface's `fault` outcome: there are none. Every fault of this hardware is
an effect the spec describes whole (R171: `RUN <- Halted(cause, info)`, nothing else), so the model
takes it as a next state (log 5). -/
inductive Fault where
  deriving DecidableEq, Repr

/-- The reasons of the interface's `refused` outcome. -/
inductive Refusal where
  /-- Raised by `exec` for an instruction without a meaning. Safe. No arm raises it. -/
  | notModelled (mnemonic : String)
  /-- Raised by `step` for a Reset event whose ROM is longer than 3584 bytes or whose font is not 80
  bytes: the launch is refused and the spec defines no state (R55, R190; log 6). Safe. -/
  | launchRefused (romLength fontLength : Nat)
  deriving DecidableEq, Repr

/-- The machine right after reset (70_reset_and_hazards.md R190), launched with an empty ROM (log 9)
and a FONT_DATA nothing is known about (log 4). The values the source does not give are the spec's
decision D12 (log 7); those of the model's own fields are log 8. -/
def State.reset : State where
  V := Vector.replicate 16 0
  I := 0
  pc := 0x200
  stk := Vector.replicate 16 0
  sp := 0
  DT := 0
  ST := 0
  fb := Framebuffer.blank
  dirty := false
  keys := 0
  wait := .idle
  run := .running
  mem := { font := Vector.ofFn (fun i => Config.fontByte i.val), cells := [] }
  instrCount := 0
  renderCount := 0
  rnd := 0
  tone := false
  events := []
  draws := 0

end Sys2Proof.Machine
end

