-- ==== Sys2Proof/Machine/Memory.lean ====
section
/-!
DEFINITION. The raw store `MEM` (10_state.md R24, 20_memory.md R40): reading and writing one cell of
the canonical list, with no access check. Instructions reach it through the checked accesses of
Ops.lean.
-/

namespace Sys2Proof.Machine.Memory

/-- What an address that is not listed reads as: the reset contents with an empty ROM (R24):
FONT_DATA in the font region, 0 elsewhere (log 4, log 7). -/
def unlisted (m : Memory) (a : Nat) : Byte :=
  if h : a < 80 then m.font[a] else 0

/-- The byte the list gives for `a`, if any. -/
def find : List Host.Cell → Nat → Option Byte
  | [], _ => none
  | (b, v) :: rest, a => if b = a then some v else find rest a

/-- `MEM[a]`: the raw cell (R40). -/
def read (m : Memory) (a : Nat) : Byte := (find m.cells a).getD (m.unlisted a)

/-- Put a cell into a list sorted by address, replacing one at the same address. -/
def insert (a : Nat) (v : Byte) : List Host.Cell → List Host.Cell
  | [] => [(a, v)]
  | (b, w) :: rest =>
    if a < b then (a, v) :: (b, w) :: rest
    else if a = b then (a, v) :: rest
    else (b, w) :: insert a v rest

/-- Take the cell at `a` out of a list. -/
def erase (a : Nat) : List Host.Cell → List Host.Cell
  | [] => []
  | (b, w) :: rest => if a = b then rest else (b, w) :: erase a rest

/-- `MEM[a] <- v`: the raw write, keeping the canonical form. -/
def write (m : Memory) (a : Nat) (v : Byte) : Memory :=
  if v = m.unlisted a then { m with cells := erase a m.cells }
  else { m with cells := insert a v m.cells }

/-- Write bytes at ascending addresses. -/
def writeAll (m : Memory) (a : Nat) : List Byte → Memory
  | [] => m
  | v :: vs => writeAll (m.write a v) (a + 1) vs

/-- The addresses of a list of cells rise strictly, from above `lo` on. -/
def rising (lo : Nat) : List Host.Cell → Bool
  | [] => true
  | (b, _) :: rest => decide (lo ≤ b) && rising (b + 1) rest

/-- The canonical form: addresses strictly rising and below 4096 (R40), and no cell equal to what
its address reads as unlisted. -/
def wf (m : Memory) : Bool :=
  rising 0 m.cells && m.cells.all (fun c => decide (c.1 < Config.memSize) && c.2 != m.unlisted c.1)

/-- The memory of a launch (R190): FONT_DATA in the font region, the ROM from 0x200 on, 0 elsewhere. -/
def ofLaunch (rom font : List Byte) : Memory :=
  writeAll { font := Vector.ofFn (fun i => font.getD i.val 0), cells := [] } Config.programBase rom

end Sys2Proof.Machine.Memory
end

