-- ==== Sys2Proof/Machine/Ops.lean ====
section
/-!
DEFINITION. The named operations over registers, memory, stack and run status that the instructions
and the engine share. TAKING A FAULT is `State.raise` (60_exceptions.md R171); there is no return
from one (R174).
-/

namespace Sys2Proof.Machine

/-- The flag register VF (10_state.md R11). -/
abbrev regF : Nibble := 0xF#4

/-- The implicit operand of `JMPV0` (R94). -/
abbrev reg0 : Nibble := 0x0#4

/-- The numeric code of a cause (R170; log 25). -/
def Cause.code : Cause → Nat
  | .outOfBoundsAccess => 1
  | .unrecognizedOpcode => 2
  | .stackUnderflow => 3
  | .stackOverflow => 4
  | .reservedRegionAccess => 5
  | .invalidKeyIndex => 6

/-- What a failing check hands to `raise` (R170). -/
structure Trap where
  cause : Cause
  info : Word
  deriving DecidableEq, Repr

namespace State

/-! ### General registers (R10) -/

/-- `V[x]`. -/
def reg (s : State) (x : Nibble) : Byte := s.V[x.toNat]'x.isLt

/-- `V[x] <- v`. -/
def setReg (s : State) (x : Nibble) (v : Byte) : State := { s with V := s.V.set x.toNat v x.isLt }

/-! ### Faults (R171, R172) -/

/-- `raise C(info)`: record the cause and stop; everything done so far stays (R171, R172). -/
def raise (s : State) (t : Trap) : State := { s with run := .halted t.cause t.info }

/-! ### Program counter (R13, R104) -/

/-- `pc <- (pc + 2) mod 65536`: the advance before dispatch (R84). -/
def advance (s : State) : State := { s with pc := BitVec.ofNat 16 (s.pc.toNat + 2) }

/-- `skip` (R104): the same sum, once more. -/
def skip (s : State) : State := { s with pc := BitVec.ofNat 16 (s.pc.toNat + 2) }

/-- `if c then skip`. -/
def skipIf (s : State) (c : Bool) : State := if c then s.skip else s

end State

/-! ### Memory accesses (R42 to R48) -/

/-- `Check(a)` (R42): the trap an access to `a` raises, if it raises one; reads and writes alike. -/
def checkAddress (a : Nat) : Option Trap :=
  if Config.memSize ≤ a then some ⟨.outOfBoundsAccess, BitVec.ofNat 16 a⟩
  else if 0x050 ≤ a ∧ a ≤ 0x1FF then some ⟨.reservedRegionAccess, BitVec.ofNat 16 a⟩
  else none

namespace State

/-- `MemRead(a, 1)` (R43). -/
def memRead (s : State) (a : Nat) : Except Trap Byte :=
  match checkAddress a with
  | some t => .error t
  | none => .ok (s.mem.read a)

/-- `MemWrite(a, 1, v)` (R44). -/
def memWrite (s : State) (a : Nat) (v : Byte) : Except Trap State :=
  match checkAddress a with
  | some t => .error t
  | none => .ok { s with mem := s.mem.write a v }

/-- `MemRead(a, 2)` (R45): big-endian, the high byte checked and read first, `a + 1` not wrapped. -/
def memReadWord (s : State) (a : Nat) : Except Trap Word :=
  match s.memRead a with
  | .error t => .error t
  | .ok hi =>
    match s.memRead (a + 1) with
    | .error t => .error t
    | .ok lo => .ok (wordOfBytes hi lo)

/-- `PeekWord(a)` (R56): the word at `a`, or nothing where a read would raise. -/
def peekWord (s : State) (a : Nat) : Option Word :=
  match s.memReadWord a with
  | .ok w => some w
  | .error _ => none

/-- Store bytes at ascending addresses, each one checked; a raise keeps the bytes already stored
(R133, R134, R172; log 21). -/
def storeBytes (s : State) (a : Nat) : List Byte → State
  | [] => s
  | v :: vs =>
    match s.memWrite a v with
    | .error t => s.raise t
    | .ok s' => s'.storeBytes (a + 1) vs

/-- `for i in i .. i + count - 1: V[i] <- MemRead(base + i, 1)`, ascending; a raise keeps the registers
already loaded (R135, R172; log 21). -/
def loadRegs (base : Nat) : (count i : Nat) → State → State
  | 0, _, s => s
  | count + 1, i, s =>
    match s.memRead (base + i) with
    | .error t => s.raise t
    | .ok b => loadRegs base count (i + 1) (s.setReg (BitVec.ofNat 4 i) b)

/-! ### Call stack (R14, R15) -/

/-- Push `w`, or raise `StackOverflow(16)` with nothing changed (R93; log 12). -/
def push (s : State) (w : Word) : Except Trap State :=
  if h : s.sp.val < 16 then
    .ok { s with stk := s.stk.set s.sp.val w h, sp := ⟨s.sp.val + 1, by omega⟩ }
  else .error ⟨.stackOverflow, BitVec.ofNat 16 s.sp.val⟩

/-- Pop an entry, or raise `StackUnderflow(0)` with nothing changed (R91; log 12). The popped entry
stays in the array as a dead value (R14). -/
def pop (s : State) : Except Trap (Word × State) :=
  if h : s.sp.val = 0 then .error ⟨.stackUnderflow, BitVec.ofNat 16 s.sp.val⟩
  else
    .ok (s.stk[s.sp.val - 1]'(by have := s.sp.isLt; omega),
      { s with sp := ⟨s.sp.val - 1, by have := s.sp.isLt; omega⟩ })

end State

/-- Run a function on a next state; the other outcomes pass unchanged. -/
def onNext (o : Host.Outcome State Fault Refusal) (f : State → State) :
    Host.Outcome State Fault Refusal :=
  match o with
  | .next s => .next (f s)
  | .fault r => .fault r
  | .refused r => .refused r

end Sys2Proof.Machine
end

