-- ==== Sys2Proof/Machine/Operands.lean ====
section
/-!
DEFINITION. Operand forms: how fields and registers become operands (30_encoding.md R63,
40_engine_cycle.md R85, 44_index_memory.md R137, 45_display.md R141, 46_keypad.md R150).
-/

namespace Sys2Proof.Machine

/-- `zext_16(nnn)` (R63). -/
def addrToWord (nnn : Addr) : Word := nnn.setWidth 16

/-- `zext_16(vx)` (R122). -/
def byteToWord (v : Byte) : Word := v.setWidth 16

/-- The decimal digits of a byte: hundreds, tens, units (R133). -/
def bcdDigits (v : Byte) : List Byte :=
  [BitVec.ofNat 8 (v.toNat / 100), BitVec.ofNat 8 (v.toNat / 10 % 10), BitVec.ofNat 8 (v.toNat % 10)]

/-- The column a sprite's bit `c` lands on: `(vx + c) mod 64` (R141). -/
def wrapColumn (vx : Byte) (c : Nat) : Fin 64 := ⟨(vx.toNat + c) % 64, Nat.mod_lt _ (by decide)⟩

/-- The row a sprite's byte `r` lands on: `(vy + r) mod 32` (R141). -/
def wrapRow (vy : Byte) (r : Nat) : Fin 32 := ⟨(vy.toNat + r) % 32, Nat.mod_lt _ (by decide)⟩

namespace State

/-- The base of a data access: `I` as a natural number, never wrapped or masked (R48, R137). -/
def dataBase (s : State) : Nat := s.I.toNat

/-- The registers `V[0] .. V[x]` in ascending order (R134). -/
def regsUpTo (s : State) (x : Nibble) : List Byte :=
  (List.range (x.toNat + 1)).map (fun i => s.reg (BitVec.ofNat 4 i))

/-- The key a register's value names, or `InvalidKeyIndex` where it is above 15 (R150; log 15). -/
def keyPressed (s : State) (vx : Byte) : Except Trap Bool :=
  if 15 < vx.toNat then .error ⟨.invalidKeyIndex, byteToWord vx⟩
  else .ok (s.keys.getLsbD vx.toNat)

end State

end Sys2Proof.Machine
end

