-- ==== Sys2Proof/Machine/Screen.lean ====
section
/-!
DEFINITION. The sprite engine over the framebuffer (45_display.md R140, R141).
-/

namespace Sys2Proof.Machine

namespace Framebuffer

/-- `FB[row][col]` (R18). -/
def cell (fb : Framebuffer) (row : Fin 32) (col : Fin 64) : Bool := (fb[row.val])[col.val]

/-- `FB[row][col] <- FB[row][col] XOR 1` (R141). -/
def toggle (fb : Framebuffer) (row : Fin 32) (col : Fin 64) : Framebuffer :=
  fb.set row.val ((fb[row.val]).set col.val (!fb.cell row col))

/-- Some cell is 1 (R140). -/
def anySet (fb : Framebuffer) : Bool := fb.toList.any (fun r => r.toList.any id)

end Framebuffer

/-- What a blit carries from cell to cell (R141): the framebuffer, `coll` and `changed`. -/
structure Blit where
  fb : Framebuffer
  coll : Bool
  changed : Bool
  deriving DecidableEq, Repr

namespace Blit

/-- One 1 bit of a sprite on a cell (R141): note a collision, toggle the cell. -/
def toggle (b : Blit) (row : Fin 32) (col : Fin 64) : Blit where
  fb := b.fb.toggle row col
  coll := b.coll || b.fb.cell row col
  changed := true

/-- One column of a sprite row: bit `7 - c` of the byte (R141). -/
def drawBit (byte vx : Byte) (row : Fin 32) (b : Blit) (c : Nat) : Blit :=
  if byte.getLsbD (7 - c) then b.toggle row (wrapColumn vx c) else b

/-- One row of a sprite: columns 0 to 7, ascending (R141). -/
def drawRow (b : Blit) (byte vx : Byte) (row : Fin 32) : Blit :=
  (List.range 8).foldl (drawBit byte vx row) b

end Blit

namespace State

/-- The end of a blit (R141): `if coll = 1 then V[0xF] <- 1; if changed = 1 then DIRTY <- 1`. -/
def endBlit (s : State) (coll changed : Bool) : State :=
  let s := if coll then s.setReg regF 1 else s
  { s with dirty := s.dirty || changed }

/-- The row loop (R141), from row `r`: a raise keeps the rows already drawn and ends the
instruction (R172; log 21). -/
def drawRows (vx vy : Byte) : (count r : Nat) → (coll changed : Bool) → State → State
  | 0, _, coll, changed, s => s.endBlit coll changed
  | count + 1, r, coll, changed, s =>
    match s.memRead (s.dataBase + r) with
    | .error t => s.raise t
    | .ok byte =>
      let b := Blit.drawRow ⟨s.fb, coll, changed⟩ byte vx (wrapRow vy r)
      drawRows vx vy count (r + 1) b.coll b.changed { s with fb := b.fb }

/-- `CLS` (R140): DIRTY is set only if some cell was 1. -/
def clearScreen (s : State) : State :=
  { s with fb := Framebuffer.blank, dirty := s.dirty || s.fb.anySet }

end State

end Sys2Proof.Machine
end

