-- ==== Sys2Proof/Machine/Display.lean ====
section
/-!
DEFINITION. The display instructions (45_display.md).
-/

namespace Sys2Proof.Machine

/-- `CLS` (R140). -/
def execCls (s : State) : Host.Outcome State Fault Refusal := .next s.clearScreen

/-- `DRW Vx, Vy, n` (R141): the coordinates are latched before VF is cleared (R85). -/
def execDrw (x y n : Nibble) (s : State) : Host.Outcome State Fault Refusal :=
  let vx := s.reg x
  let vy := s.reg y
  .next (State.drawRows vx vy n.toNat 0 false false (s.setReg regF 0))

end Sys2Proof.Machine
end

