-- ==== Sys2Proof/Machine/IndexMemory.lean ====
section
/-!
DEFINITION. Index register and memory (44_index_memory.md). None of `BCD`, `STM`, `LDM` changes `I`
(R136).
-/

namespace Sys2Proof.Machine

/-- `LDIX nnn` (R130). -/
def execLdix (nnn : Addr) (s : State) : Host.Outcome State Fault Refusal :=
  .next { s with I := addrToWord nnn }

/-- `ADDIX Vx` (R131): modulo 65536 (log 14), no flag. -/
def execAddix (x : Nibble) (s : State) : Host.Outcome State Fault Refusal :=
  .next { s with I := BitVec.ofNat 16 (s.I.toNat + (s.reg x).toNat) }

/-- `FONT Vx` (R132): the whole 8-bit value, times 5. -/
def execFont (x : Nibble) (s : State) : Host.Outcome State Fault Refusal :=
  .next { s with I := BitVec.ofNat 16 ((s.reg x).toNat * Config.glyphBytes) }

/-- `BCD Vx` (R133). -/
def execBcd (x : Nibble) (s : State) : Host.Outcome State Fault Refusal :=
  .next (s.storeBytes s.dataBase (bcdDigits (s.reg x)))

/-- `STM Vx` (R134): `x + 1` registers. -/
def execStm (x : Nibble) (s : State) : Host.Outcome State Fault Refusal :=
  .next (s.storeBytes s.dataBase (s.regsUpTo x))

/-- `LDM Vx` (R135): `x + 1` registers. -/
def execLdm (x : Nibble) (s : State) : Host.Outcome State Fault Refusal :=
  .next (State.loadRegs s.dataBase (x.toNat + 1) 0 s)

end Sys2Proof.Machine
end

