-- ==== Sys2Proof/Machine/Keypad.lean ====
section
/-!
DEFINITION. The keypad instructions and the key resolution of a waiting Tick (46_keypad.md).
-/

namespace Sys2Proof.Machine

/-- `SKP Vx` (R150). -/
def execSkp (x : Nibble) (s : State) : Host.Outcome State Fault Refusal :=
  match s.keyPressed (s.reg x) with
  | .error t => .next (s.raise t)
  | .ok pressed => .next (s.skipIf pressed)

/-- `SKNP Vx` (R151). -/
def execSknp (x : Nibble) (s : State) : Host.Outcome State Fault Refusal :=
  match s.keyPressed (s.reg x) with
  | .error t => .next (s.raise t)
  | .ok pressed => .next (s.skipIf (!pressed))

/-- `WAITK Vx` (R152): enter `AwaitingKey(x)`; the keys are not looked at. -/
def execWaitk (x : Nibble) (s : State) : Host.Outcome State Fault Refusal :=
  .next { s with wait := .awaitingKey x }

/-- The least pressed key, if any is pressed (R153). -/
def lowestKey (keys : BitVec 16) : Option Nat :=
  (List.range Config.numKeys).find? (fun k => keys.getLsbD k)

/-- `ResolveKey(r)` (R153). -/
def State.resolveKey (s : State) (r : Nibble) : State :=
  match lowestKey s.keys with
  | some k => { s.setReg r (BitVec.ofNat 8 k) with wait := .idle }
  | none => s

end Sys2Proof.Machine
end

