-- ==== Sys2Proof/Machine/Flags.lean ====
section
/-!
DEFINITION. The flag VF: every value an instruction computes for it (10_state.md R11,
43_load_alu.md R116 to R120), always 0 or 1 in all 8 bits, and the order in which flag and result
are written (40_engine_cycle.md R86; log 13).
-/

namespace Sys2Proof.Machine

/-- A flag as the whole of VF: 0x00 or 0x01 (R11). -/
def flagByte (b : Bool) : Byte := if b then 1 else 0

/-- Carry-out of `vx + vy` (R116). -/
def carryFlag (vx vy : Byte) : Byte := flagByte (255 < vx.toNat + vy.toNat)

/-- The flag of `a - b`: 1 when `a` is strictly greater (R117, R119; log 16). -/
def greaterFlag (a b : Byte) : Byte := flagByte (b.toNat < a.toNat)

/-- The bit `SHR` shifts out (R118). -/
def lowBitFlag (vx : Byte) : Byte := flagByte (vx.getLsbD 0)

/-- The bit `SHL` shifts out (R120). -/
def highBitFlag (vx : Byte) : Byte := flagByte (vx.getLsbD 7)

namespace State

/-- Write VF first and `V[x]` second, so that with `x = 0xF` the result stays (R86; log 13). -/
def writeFlagThenResult (s : State) (x : Nibble) (flag result : Byte) : State :=
  (s.setReg regF flag).setReg x result

end State

end Sys2Proof.Machine
end

