-- ==== Sys2Proof/Machine/LoadAlu.lean ====
section
/-!
DEFINITION. Load, arithmetic, logic, shift and random (43_load_alu.md). Operands are read before
anything is written (40_engine_cycle.md R85); sums and differences are computed exactly on natural
numbers and narrowed at the end (R122).
-/

namespace Sys2Proof.Machine

/-- `LDI Vx, kk` (R110). -/
def execLdi (x : Nibble) (kk : Byte) (s : State) : Host.Outcome State Fault Refusal :=
  .next (s.setReg x kk)

/-- `ADDI Vx, kk` (R111): no flag. -/
def execAddi (x : Nibble) (kk : Byte) (s : State) : Host.Outcome State Fault Refusal :=
  .next (s.setReg x (BitVec.ofNat 8 ((s.reg x).toNat + kk.toNat)))

/-- `MOV Vx, Vy` (R112). -/
def execMov (x y : Nibble) (s : State) : Host.Outcome State Fault Refusal :=
  .next (s.setReg x (s.reg y))

/-- `OR Vx, Vy` (R113): VF unchanged. -/
def execOr (x y : Nibble) (s : State) : Host.Outcome State Fault Refusal :=
  .next (s.setReg x (s.reg x ||| s.reg y))

/-- `AND Vx, Vy` (R114): VF unchanged. -/
def execAnd (x y : Nibble) (s : State) : Host.Outcome State Fault Refusal :=
  .next (s.setReg x (s.reg x &&& s.reg y))

/-- `XOR Vx, Vy` (R115): VF unchanged. -/
def execXor (x y : Nibble) (s : State) : Host.Outcome State Fault Refusal :=
  .next (s.setReg x (s.reg x ^^^ s.reg y))

/-- `ADD Vx, Vy` (R116). -/
def execAdd (x y : Nibble) (s : State) : Host.Outcome State Fault Refusal :=
  let vx := s.reg x
  let vy := s.reg y
  .next (s.writeFlagThenResult x (carryFlag vx vy) (BitVec.ofNat 8 (vx.toNat + vy.toNat)))

/-- `SUB Vx, Vy` (R117). -/
def execSub (x y : Nibble) (s : State) : Host.Outcome State Fault Refusal :=
  let vx := s.reg x
  let vy := s.reg y
  .next (s.writeFlagThenResult x (greaterFlag vx vy) (BitVec.ofNat 8 (vx.toNat + 256 - vy.toNat)))

/-- `SHR Vx` (R118): `y` is ignored. -/
def execShr (x _y : Nibble) (s : State) : Host.Outcome State Fault Refusal :=
  let vx := s.reg x
  .next (s.writeFlagThenResult x (lowBitFlag vx) (vx >>> 1))

/-- `SUBN Vx, Vy` (R119). -/
def execSubn (x y : Nibble) (s : State) : Host.Outcome State Fault Refusal :=
  let vx := s.reg x
  let vy := s.reg y
  .next (s.writeFlagThenResult x (greaterFlag vy vx) (BitVec.ofNat 8 (vy.toNat + 256 - vx.toNat)))

/-- `SHL Vx` (R120): `y` is ignored. -/
def execShl (x _y : Nibble) (s : State) : Host.Outcome State Fault Refusal :=
  let vx := s.reg x
  .next (s.writeFlagThenResult x (highBitFlag vx) (vx <<< 1))

/-- `RND Vx, kk` (R121): the random byte of this Tick (log 2, log 3). -/
def execRnd (x : Nibble) (kk : Byte) (s : State) : Host.Outcome State Fault Refusal :=
  .next (s.setReg x (s.rnd &&& kk))

end Sys2Proof.Machine
end

