-- ==== Sys2Proof/Machine/Skips.lean ====
section
/-!
DEFINITION. The register-compare skips (42_skips.md).
-/

namespace Sys2Proof.Machine

/-- `SEI Vx, kk` (R100). -/
def execSei (x : Nibble) (kk : Byte) (s : State) : Host.Outcome State Fault Refusal :=
  .next (s.skipIf (s.reg x = kk))

/-- `SNEI Vx, kk` (R101). -/
def execSnei (x : Nibble) (kk : Byte) (s : State) : Host.Outcome State Fault Refusal :=
  .next (s.skipIf (s.reg x ≠ kk))

/-- `SER Vx, Vy` (R102). -/
def execSer (x y : Nibble) (s : State) : Host.Outcome State Fault Refusal :=
  .next (s.skipIf (s.reg x = s.reg y))

/-- `SNER Vx, Vy` (R103). -/
def execSner (x y : Nibble) (s : State) : Host.Outcome State Fault Refusal :=
  .next (s.skipIf (s.reg x ≠ s.reg y))

end Sys2Proof.Machine
end

