-- ==== Sys2Proof/Machine/System.lean ====
section
/-!
DEFINITION. System and control transfer (41_system_flow.md). On entry `pc` is already past the
instruction (R84).
-/

namespace Sys2Proof.Machine

/-- `NOP` (R90): nothing. -/
def execNop (s : State) : Host.Outcome State Fault Refusal := .next s

/-- `RET` (R91). -/
def execRet (s : State) : Host.Outcome State Fault Refusal :=
  match s.pop with
  | .error t => .next (s.raise t)
  | .ok (target, s') => .next { s' with pc := target }

/-- `JMP nnn` (R92): the run is finished when the word at the target is this instruction's own word
(log 22); `pc` is set in either case. -/
def execJmp (nnn : Addr) (s : State) : Host.Outcome State Fault Refusal :=
  let selfJump : Bool := s.peekWord nnn.toNat = some (encodeWord (.jmp nnn))
  .next { s with run := if selfJump then .finished else s.run, pc := addrToWord nnn }

/-- `CALL nnn` (R93): push the advanced `pc`. -/
def execCall (nnn : Addr) (s : State) : Host.Outcome State Fault Refusal :=
  match s.push s.pc with
  | .error t => .next (s.raise t)
  | .ok s' => .next { s' with pc := addrToWord nnn }

/-- `JMPV0 nnn` (R94). -/
def execJmpv0 (nnn : Addr) (s : State) : Host.Outcome State Fault Refusal :=
  .next { s with pc := BitVec.ofNat 16 ((s.reg reg0).toNat + nnn.toNat) }

end Sys2Proof.Machine
end

