-- ==== Sys2Proof/Machine/Timers.lean ====
section
/-!
DEFINITION. The timer instructions and the timer step of a Tick (47_timers.md).
-/

namespace Sys2Proof.Machine

/-- `LDDT Vx` (R160). -/
def execLddt (x : Nibble) (s : State) : Host.Outcome State Fault Refusal :=
  .next (s.setReg x s.DT)

/-- `STDT Vx` (R161). -/
def execStdt (x : Nibble) (s : State) : Host.Outcome State Fault Refusal :=
  .next { s with DT := s.reg x }

/-- `STST Vx` (R162). -/
def execStst (x : Nibble) (s : State) : Host.Outcome State Fault Refusal :=
  .next { s with ST := s.reg x }

/-- A saturating decrement: `if t > 0 then t - 1` (R163). -/
def countDown (t : Byte) : Byte := BitVec.ofNat 8 (t.toNat - 1)

/-- `TimerStep()` (R163, R164) where `due`, and nothing where not: both timers step, and `tone` says
whether the sound timer was nonzero before (log 19). -/
def State.timerStep (s : State) (due : Bool) : State :=
  { s with
    tone := due && s.ST != 0
    DT := if due then countDown s.DT else s.DT
    ST := if due then countDown s.ST else s.ST }

end Sys2Proof.Machine
end

