-- ==== Sys2Proof/WellFormed.lean ====
section
/-!
DEFINITION. Well-formedness. Every term of `Instr` is well-formed by its type: a field has exactly
the width the format gives it (30_encoding.md R62), and "all 16 numbers are legal in every
position" (R63), so no check on instructions is left to make. What a host CAN give ill-formed is a
launch: a ROM that does not fit, or a font that is not 80 bytes (20_memory.md R55,
70_reset_and_hazards.md R190); these two checks stand here, and a Reset that fails one is refused
(log 6). The contents of a ROM are not validated (R193).
-/

namespace Sys2Proof

/-- The ROM fits between 0x200 and the end of memory (R55). -/
def romFits (rom : List Byte) : Bool := rom.length ≤ Config.romMax

/-- FONT_DATA is exactly 80 bytes (R190). -/
def fontFits (font : List Byte) : Bool := font.length = Config.fontSize

/-- A legal launch (R190): what Reset requires of its two arguments. -/
def launchWellFormed (rom font : List Byte) : Bool := romFits rom && fontFits font

end Sys2Proof
end

