-- ==== Sys2Proof/Machine/Engine.lean ====
section
/-!
DEFINITION. The engine: the instruction cycle, the Tick, RenderAck and Reset (40_engine_cycle.md
R81 to R84, 45_display.md R143, 70_reset_and_hazards.md R190), and the delivery of one host event.
-/

namespace Sys2Proof.Machine

/-! ### The instruction cycle (R84) -/

/-- Decode and dispatch a fetched word: `pc` is advanced first, then the word is decoded; an
unrecognized word raises `UnrecognizedOpcode(w)` (R66, R84). -/
def dispatch (w : Word) (s : State) : Host.Outcome State Fault Refusal :=
  let s := { s.advance with instrCount := s.instrCount + 1 }
  match decodeWord w with
  | .error _ => .next (s.raise ⟨.unrecognizedOpcode, w⟩)
  | .ok i => exec i s

/-- `InstructionCycle(rnd)` (R84): a fault of the fetch leaves `pc` unchanged (R172). -/
def instructionCycle (s : State) : Host.Outcome State Fault Refusal :=
  match s.memReadWord s.pc.toNat with
  | .error t => .next (s.raise t)
  | .ok w => dispatch w s

/-! ### The Tick (R81) -/

namespace State

/-- What a Tick does before step 2 (R81, R83): `tone <- 0`, `K <- keys_in`, the random byte held. -/
def beginTick (s : State) (input : TickInput) : State :=
  { s with tone := false, keys := input.keysIn, rnd := input.rnd }

/-- Step 4 of a Tick (R81): the timer step, if the core is still running and the step is due. -/
def endTick (s : State) (timerDue : Bool) : State :=
  s.timerStep (s.run = .running && timerDue)

end State

/-- `Tick(keys_in, timer_due, rnd)` (R81). In a terminal state nothing changes and `tone` is 0
(R82; log 20). A Tick that begins in `AwaitingKey` runs no instruction (log 18). -/
def tick (input : TickInput) (s : State) : Host.Outcome State Fault Refusal :=
  if s.run = .running then
    let s := s.beginTick input
    match s.wait with
    | .awaitingKey r => .next ((s.resolveKey r).endTick input.timerDue)
    | .idle => onNext (instructionCycle s) (fun t => t.endTick input.timerDue)
  else .next { s with tone := false }

/-! ### The other two events -/

/-- RenderAck is enabled (R143; log 23). -/
def State.renderEnabled (s : State) : Bool := s.run = .running && s.wait = .idle && s.dirty

/-- RenderAck (R143): where it is not enabled it does not happen. -/
def State.renderAck (s : State) : State :=
  if s.renderEnabled then { s with dirty := false, renderCount := s.renderCount + 1 } else s

/-- The state after Reset(ROM, FONT_DATA) (R190): everything as at reset, with the launch's memory;
the model's own record of the host's events goes on. -/
def State.launch (s : State) (rom font : List Byte) : State :=
  { State.reset with mem := Memory.ofLaunch rom font, events := s.events, draws := s.draws }

/-- Reset(ROM, FONT_DATA) (R190): an ill-formed launch is refused (log 6). -/
def launch (rom font : List Byte) (s : State) : Host.Outcome State Fault Refusal :=
  if launchWellFormed rom font then .next (s.launch rom font)
  else .refused (.launchRefused rom.length font.length)

/-! ### The next event -/

/-- The inputs of a Tick about which nothing is known (R83, R163, R121; log 2). -/
def freeInput (n : Nat) : TickInput where
  keysIn := Config.freeKeys n
  timerDue := Config.freeTimerDue n = 1
  rnd := Config.freeRnd n

/-- The next event and the state without it: the first of the list, or a Tick with free inputs where
the list is empty (log 1). -/
def State.nextEvent (s : State) : HostEvent × State :=
  match s.events with
  | [] => (.tick (freeInput s.draws), { s with draws := s.draws + 1 })
  | e :: rest => (e, { s with events := rest })

/-- Deliver one event (R80). -/
def deliver (e : HostEvent) (s : State) : Host.Outcome State Fault Refusal :=
  match e with
  | .tick input => tick input s
  | .renderAck => .next s.renderAck
  | .reset rom font => launch rom font s

/-! ### Placing a word where the next step fetches it -/

/-- Both bytes of the word at `a` can be fetched (R42, R45). -/
def fetchable (a : Nat) : Bool := checkAddress a = none && checkAddress (a + 1) = none

/-- Put a word where the next step fetches its instruction: at `pc`, or at 0x200 where `pc` cannot be
fetched from. The core is made running and idle, and an event that is no Tick is preceded by one,
so that the very next step runs the word (log 9). -/
def State.placeWord (s : State) (w : Word) : State :=
  let a := if fetchable s.pc.toNat then s.pc else 0x200#16
  let events :=
    match s.events with
    | [] => []
    | .tick input :: rest => .tick input :: rest
    | rest => .tick ⟨0, false, 0⟩ :: rest
  { s with
    run := .running
    wait := .idle
    pc := a
    mem := (s.mem.write a.toNat (highByte w)).write (a.toNat + 1) (lowByte w)
    events := events }

end Sys2Proof.Machine
end

