-- ==== Sys2Proof/Machine/Step.lean ====
section
/-!
DEFINITION. One step: deliver the next host event (40_engine_cycle.md R80; log 1); and the host's
placing of a table word (log 9).
-/

namespace Sys2Proof.Machine

/-- One step of the machine. -/
def step (s : State) : Host.Outcome State Fault Refusal := deliver s.nextEvent.1 s.nextEvent.2

/-- `s` with a table row's word stored where `step` fetches its next instruction. -/
def State.withFetchWord (s : State) (nbits w : Nat) : State := s.placeWord (tableWord nbits w)

end Sys2Proof.Machine
end

