-- ==== Sys2Proof/Safety.lean ====
section
/-!
DEFINITION. The vocabulary of the statements: the parts of the state as a program or a host can tell
them apart, what an instruction may write (10_state.md section 1), and the machine's invariant.
-/

namespace Sys2Proof.Machine

/-- The parts of the state (10_state.md section 1; then the model's own fields). -/
inductive Part where
  | V | I | pc | STK | SP | DT | ST | FB | DIRTY | K | WAIT | RUN | MEM
  | fontData | instrCount | renderCount | rnd | tone | hostQueue
  deriving DecidableEq, Repr

/-- Two states agree on a part: register by register, cell by cell, byte by byte. -/
def Agrees (s t : State) : Part → Prop
  | .V => ∀ r, t.reg r = s.reg r
  | .I => t.I = s.I
  | .pc => t.pc = s.pc
  | .STK => ∀ j : Fin 16, t.stk[j.val] = s.stk[j.val]
  | .SP => t.sp = s.sp
  | .DT => t.DT = s.DT
  | .ST => t.ST = s.ST
  | .FB => ∀ row col, t.fb.cell row col = s.fb.cell row col
  | .DIRTY => t.dirty = s.dirty
  | .K => t.keys = s.keys
  | .WAIT => t.wait = s.wait
  | .RUN => t.run = s.run
  | .MEM => ∀ a, t.mem.read a = s.mem.read a
  | .fontData => t.mem.font = s.mem.font
  | .instrCount => t.instrCount = s.instrCount
  | .renderCount => t.renderCount = s.renderCount
  | .rnd => t.rnd = s.rnd
  | .tone => t.tone = s.tone
  | .hostQueue => t.events = s.events ∧ t.draws = s.draws

/-- `t` differs from `s` in the listed parts at most. -/
def SameBut (parts : List Part) (s t : State) : Prop := ∀ p, p ∉ parts → Agrees s t p

/-- The registers outside the list keep their values. -/
def RegsSameBut (rs : List Nibble) (s t : State) : Prop := ∀ r, r ∉ rs → t.reg r = s.reg r

/-- The bytes outside the `n` addresses from `a` on keep their values. -/
def MemSameOutside (a n : Nat) (s t : State) : Prop :=
  ∀ b, b < a ∨ a + n ≤ b → t.mem.read b = s.mem.read b

/-- The parts the rule of an instruction writes, beside the advance of `pc` that the instruction cycle
makes (the "written by" column of 10_state.md section 1, and R175 for RUN). -/
def partsOf : Instr → List Part
  | .nop => []
  | .cls => [.FB, .DIRTY]
  | .ret => [.pc, .SP, .RUN]
  | .jmp _ => [.pc, .RUN]
  | .call _ => [.pc, .SP, .STK, .RUN]
  | .sei _ _ | .snei _ _ | .ser _ _ | .sner _ _ => [.pc]
  | .ldi _ _ | .addi _ _ | .mov _ _ | .or _ _ | .and _ _ | .xor _ _ => [.V]
  | .add _ _ | .sub _ _ | .shr _ _ | .subn _ _ | .shl _ _ | .rnd _ _ => [.V]
  | .ldix _ | .addix _ | .font _ => [.I]
  | .jmpv0 _ => [.pc]
  | .drw _ _ _ => [.V, .FB, .DIRTY, .RUN]
  | .skp _ | .sknp _ => [.pc, .RUN]
  | .lddt _ => [.V]
  | .waitk _ => [.WAIT]
  | .stdt _ => [.DT]
  | .stst _ => [.ST]
  | .bcd _ | .stm _ => [.MEM, .RUN]
  | .ldm _ => [.V, .RUN]

/-- The registers the rule of an instruction writes (10_state.md R10, R11). -/
def destsOf : Instr → List Nibble
  | .ldi x _ | .addi x _ | .mov x _ | .or x _ | .and x _ | .xor x _ | .rnd x _ | .lddt x => [x]
  | .add x _ | .sub x _ | .shr x _ | .subn x _ | .shl x _ => [x, regF]
  | .drw _ _ _ => [regF]
  | .ldm x => (List.range (x.toNat + 1)).map (BitVec.ofNat 4)
  | .nop | .cls | .ret | .jmp _ | .call _ | .sei _ _ | .snei _ _ | .ser _ _ | .sner _ _ => []
  | .ldix _ | .jmpv0 _ | .skp _ | .sknp _ | .waitk _ | .stdt _ | .stst _ | .addix _ | .font _ => []
  | .bcd _ | .stm _ => []

/-- Every byte of the `n` addresses from `a` on may be accessed (R42). -/
def Accessible (a n : Nat) : Prop := ∀ k, k < n → checkAddress (a + k) = none

/-- Some 1 bit among the first `n` of a sprite row `byte` drawn at `vx` lands on column `col`: bit
`7 - c` belongs to column `(vx + c) mod 64` (R141). -/
def rowHits (byte vx : Byte) (n : Nat) (col : Fin 64) : Bool :=
  (List.range n).any (fun c => byte.getLsbD (7 - c) && decide (col = wrapColumn vx c))

/-- Some 1 bit of the sprite rows `r .. r + count - 1`, read from `base` on and drawn at `(vx, vy)`,
lands on the cell `(row, col)`: row `k` belongs to `(vy + k) mod 32` (R141). -/
def spriteHits (m : Memory) (base : Nat) (vx vy : Byte) (count r : Nat) (row : Fin 32) (col : Fin 64) :
    Bool :=
  (List.range count).any fun k =>
    decide (row = wrapRow vy (r + k)) && rowHits (m.read (base + (r + k))) vx 8 col

/-- The core runs an instruction in its next step: it is running, it waits for no key, and the next
event is a Tick with these inputs (R81). -/
def RunsNext (s : State) (input : TickInput) : Prop :=
  s.run = .running ∧ s.wait = .idle ∧ s.nextEvent.1 = .tick input

/-- The state in which the rule of the next instruction runs (R81, R83, R84): the event taken from the
queue, the inputs taken in, `pc` advanced, the fetch counted. -/
def State.entered (s : State) (input : TickInput) : State :=
  let b := s.nextEvent.2.beginTick input
  { b.advance with instrCount := b.instrCount + 1 }

/-- The `info` a halted core shows fits its cause (the last column of the table of R170). -/
def InfoFits : RunStatus → Prop
  | .running => True
  | .finished => True
  | .halted .outOfBoundsAccess info => 4096 ≤ info.toNat
  | .halted .unrecognizedOpcode info => decodeWord info = .error (.unrecognized info)
  | .halted .stackUnderflow info => info = 0
  | .halted .stackOverflow info => info = 16
  | .halted .reservedRegionAccess info => 0x050 ≤ info.toNat ∧ info.toNat ≤ 0x1FF
  | .halted .invalidKeyIndex info => 16 ≤ info.toNat ∧ info.toNat ≤ 255

/-- The invariant of every reachable state: memory is canonical; `pc` stays within what R13 and R94
allow; a stack entry is the advanced `pc` of a call (R13, R93) or 0; only a running core waits for a
key (R177); and the recorded `info` fits its cause (R170). -/
structure Inv (s : State) : Prop where
  memWf : s.mem.wf = true
  pcBound : s.pc.toNat ≤ 0x10FE
  stkBound : ∀ j : Fin 16, (s.stk[j.val]).toNat ≤ 0x1000
  waitRuns : s.wait ≠ .idle → s.run = .running
  infoFits : InfoFits s.run

end Sys2Proof.Machine
end

