-- ==== Sys2Proof/Certificates/Slice0/Obligations.lean ====
section
/-!
DEFINITION. The statements for the provers. In a statement about `exec`, `pc` is already past the
instruction (40_engine_cycle.md R84). "D<n>" is a decision of spec/92_eei_decisions.md, which is the
spec's own choice and not its source's; a statement that rests on one says so.
-/

open Sys2Proof Sys2Proof.Machine

/-! ### Encoding -/

/-- Decoding the encoding of any instruction, with every operand at every value, gives it back, and
leaves the bytes after it (30_encoding.md R60 to R65). -/
def Obligations.DecodeOfEncodeIsIdentity : Prop :=
  ∀ (i : Instr) (rest : List Byte),
    decodeWord (encodeWord i) = .ok i ∧ decode (encode i ++ rest) = .ok (i, rest)

/-- A recognized word is the encoding of what it decodes to: no word is a second spelling
(30_encoding.md R64, R65). -/
def Obligations.EncodeOfDecodeIsIdentity : Prop :=
  ∀ (w : Word) (i : Instr), decodeWord w = .ok i → encodeWord i = w

/-- At most one row of the opcode map matches a word; a word one row matches decodes to an instruction
of that row, and a word no row matches is unrecognized (30_encoding.md section 3). -/
def Obligations.WordDecodesByTheRowItMatches : Prop :=
  ∀ w : Word,
    opcodeMap.countP (matchesRow w) ≤ 1 ∧
    ((∃ i, decodeWord w = .ok i ∧ matchesRow w (rowOf i) = true) ∨
      (decodeWord w = .error (.unrecognized w) ∧ ∀ row ∈ opcodeMap, matchesRow w row = false))

/-- The unrecognized words are exactly those of the table of 30_encoding.md R66, group by group (the
counts are left out). -/
def Obligations.UnrecognizedWordsByGroup : Prop :=
  ∀ w : Word, decodeWord w = .error (.unrecognized w) ↔
    (opOf w = 0x0 ∧ w ≠ 0x0000 ∧ w ≠ 0x00E0 ∧ w ≠ 0x00EE) ∨
    (opOf w = 0x5 ∧ nOf w ≠ 0) ∨
    (opOf w = 0x8 ∧ nOf w ∈ [0x8#4, 0x9, 0xA, 0xB, 0xC, 0xD, 0xF]) ∨
    (opOf w = 0x9 ∧ nOf w ≠ 0) ∨
    (opOf w = 0xE ∧ kkOf w ∉ [0x9E#8, 0xA1]) ∨
    (opOf w = 0xF ∧ kkOf w ∉ [0x07#8, 0x0A, 0x15, 0x18, 0x1E, 0x29, 0x33, 0x55, 0x65])

/-- A few words of the source's scenarios and of 95_test_vectors.md decode to what they stand for, high
byte first. -/
def Obligations.SampleWordsDecodeRight : Prop :=
  decode [0x60, 0x12] = .ok (.ldi 0 0x12, []) ∧
  decode [0x80, 0x14] = .ok (.add 0 1, []) ∧
  decode [0xF0, 0x29] = .ok (.font 0, []) ∧
  decode [0x00, 0xEE] = .ok (.ret, []) ∧
  decode [0x1A, 0xBC] = .ok (.jmp 0xABC, []) ∧
  decode [0xD0, 0x12, 0xFF] = .ok (.drw 0 1 2, [0xFF]) ∧
  decode [0xE5, 0x9E] = .ok (.skp 5, []) ∧
  decode [0x3A, 0x42] = .ok (.sei 0xA 0x42, []) ∧
  decode [0x51, 0x21] = .error (.unrecognized 0x5121) ∧
  decode [0x60] = .error .truncated

/-! ### Memory -/

/-- The checked byte write (20_memory.md R44): it raises what the access check raises; otherwise it
changes exactly one cell and nothing else; and no instruction but `BCD` and `STM` changes memory. -/
def Obligations.CheckedWriteChangesOneCell : Prop :=
  (∀ (s : State) (a : Nat) (v : Byte), s.mem.wf = true →
    (∀ t, checkAddress a = some t → s.memWrite a v = .error t) ∧
    (checkAddress a = none → ∃ t, s.memWrite a v = .ok t ∧ t.mem.read a = v ∧
      (∀ b, b ≠ a → t.mem.read b = s.mem.read b) ∧ SameBut [.MEM] s t)) ∧
  (∀ (i : Instr) (s t : State), (∀ x, i ≠ .bcd x) → (∀ x, i ≠ .stm x) → exec i s = .next t →
    Agrees s t .MEM)

/-- Which addresses an access may touch, by region (20_memory.md section 2; the reserved region's fault
is decision D2, the unwrapped address D3; log 10, log 11). -/
def Obligations.AccessCheckByRegion : Prop :=
  ∀ (s : State) (a : Nat),
    ((a ≤ 0x04F ∨ (0x200 ≤ a ∧ a ≤ 0xFFF)) → s.memRead a = .ok (s.mem.read a)) ∧
    (0x050 ≤ a → a ≤ 0x1FF → ∃ info, s.memRead a = .error ⟨.reservedRegionAccess, info⟩ ∧
      info.toNat = a) ∧
    (0x1000 ≤ a → ∃ info, s.memRead a = .error ⟨.outOfBoundsAccess, info⟩ ∧
      info.toNat = a % 65536)

/-- The word read is big-endian; the high byte is checked first (decision D22, log 11), and the address
of the low byte is not wrapped (20_memory.md section 3). -/
def Obligations.WordReadIsBigEndian : Prop :=
  ∀ (s : State) (a : Nat),
    (checkAddress a = none → checkAddress (a + 1) = none → ∃ w, s.memReadWord a = .ok w ∧
      w.toNat = (s.mem.read a).toNat * 256 + (s.mem.read (a + 1)).toNat) ∧
    (∀ t, checkAddress a = some t → s.memReadWord a = .error t) ∧
    (∀ t, checkAddress a = none → checkAddress (a + 1) = some t → s.memReadWord a = .error t)

/-! ### Reset -/

/-- The ROM is loaded verbatim from 0x200 on, and the first instruction executed is the word of its
first two bytes, byte 0 the high byte (30_encoding.md R70). -/
def Obligations.RomIsLoadedVerbatim : Prop :=
  ∀ (s : State) (rom font : List Byte), launchWellFormed rom font = true →
    ∃ t, launch rom font s = .next t ∧
      (∀ j (h : j < rom.length), t.mem.read (0x200 + j) = rom[j]) ∧
      (∀ (b0 b1 : Byte) (rest : List Byte), rom = b0 :: b1 :: rest →
        ∃ w, t.memReadWord t.pc.toNat = .ok w ∧ w.toNat = b0.toNat * 256 + b1.toNat)

/-- Reset(ROM, FONT_DATA) as a whole (70_reset_and_hazards.md section 1). The source gives the font,
the ROM, the registers and `pc`; every other value is the spec's decision D12 (log 7). -/
def Obligations.ResetEventEstablishesTheResetState : Prop :=
  ∀ (s : State) (rom font : List Byte) (rest : List HostEvent),
    s.events = .reset rom font :: rest → rom.length ≤ 3584 → ∀ (hf : font.length = 80),
    ∃ t, step s = .next t ∧
      (∀ r, t.reg r = 0) ∧ t.I = 0 ∧ t.pc = 0x200 ∧ t.sp = 0 ∧ (∀ j : Fin 16, t.stk[j.val] = 0) ∧
      t.DT = 0 ∧ t.ST = 0 ∧ (∀ row col, t.fb.cell row col = false) ∧ t.dirty = false ∧
      t.keys = 0 ∧ t.wait = .idle ∧ t.run = .running ∧ t.instrCount = 0 ∧ t.renderCount = 0 ∧
      t.events = rest ∧
      (∀ a, t.mem.read a =
        if h : a < 80 then font[a]
        else if h' : 0x200 ≤ a ∧ a < 0x200 + rom.length then rom[a - 0x200]'(by omega) else 0)

/-- A launch with a ROM that does not fit, or with a font that is not 80 bytes, is refused (decision
D27, log 6). -/
def Obligations.IllFormedLaunchIsRefused : Prop :=
  ∀ (s : State) (rom font : List Byte) (rest : List HostEvent),
    s.events = .reset rom font :: rest → (3584 < rom.length ∨ font.length ≠ 80) →
    step s = .refused (.launchRefused rom.length font.length)

/-- What State.reset holds: the source gives V, pc, the font's place and the ROM's place (here an empty
ROM, log 9; FONT_DATA is a free value, log 4); the zeros elsewhere are decision D12 (log 7). The
statement holds for every value of the font's bytes. -/
def Obligations.ResetStateValues : Prop :=
  (∀ r, State.reset.reg r = 0) ∧ State.reset.pc.toNat = 0x200 ∧ State.reset.I = 0 ∧
  State.reset.sp.val = 0 ∧ (∀ j : Fin 16, State.reset.stk[j.val] = 0) ∧
  State.reset.DT = 0 ∧ State.reset.ST = 0 ∧ (∀ row col, State.reset.fb.cell row col = false) ∧
  State.reset.dirty = false ∧ State.reset.keys = 0 ∧ State.reset.wait = .idle ∧
  State.reset.run = .running ∧ (∀ a, 80 ≤ a → State.reset.mem.read a = 0)

/-- The invariant holds at reset. -/
def Obligations.ResetStateMeetsInvariant : Prop := Inv State.reset

/-- Every step keeps the invariant, from every state that meets it: memory stays canonical, `pc` and
the stack entries stay within their bounds (10_state.md section 5: the 16-bit counter never wraps in a
reachable state), only a running core waits for a key, and the `info` of a halt fits its cause
(60_exceptions.md section 1). -/
def Obligations.EveryStepKeepsInvariant : Prop :=
  ∀ s t : State, Inv s → step s = .next t → Inv t

/-! ### The engine -/

/-- A step runs the decoded instruction: when the core is running and idle and the next event is a
Tick, and the word at `pc` decodes to `i`, the step is `exec i` at the entered state (inputs taken,
`pc` advanced, fetch counted), followed by the end of the Tick (40_engine_cycle.md R81, R84). -/
def Obligations.StepRunsTheDecodedInstruction : Prop :=
  ∀ (s : State) (input : TickInput) (w : Word) (i : Instr),
    RunsNext s input → s.memReadWord s.pc.toNat = .ok w → decodeWord w = .ok i →
    step s = onNext (exec i (s.entered input)) (fun t => t.endTick input.timerDue) ∧
    (s.entered input).pc.toNat = (s.pc.toNat + 2) % 65536 ∧
    (s.entered input).keys = input.keysIn ∧ (s.entered input).rnd = input.rnd ∧
    (s.entered input).instrCount = s.instrCount + 1 ∧
    SameBut [.pc, .K, .rnd, .tone, .instrCount, .hostQueue] s (s.entered input)

/-- A fault of the fetch halts the core with `pc` unchanged; the Tick's keys are kept, there is no
timer step and no tone (60_exceptions.md section 2; decisions D11, D13, D22; log 11, 20, 21). -/
def Obligations.FetchFaultHaltsAtTheInstruction : Prop :=
  ∀ (s : State) (input : TickInput) (f : Trap),
    RunsNext s input → s.memReadWord s.pc.toNat = .error f →
    ∃ t, step s = .next t ∧ t.run = .halted f.cause f.info ∧ t.keys = input.keysIn ∧
      t.tone = false ∧ SameBut [.RUN, .K, .rnd, .tone, .hostQueue] s t

/-- An unrecognized word halts the core with its word as `info`, after `pc` was advanced; nothing else
changes and no timer steps (30_encoding.md section 5; decision D11, log 20). -/
def Obligations.UnrecognizedWordHalts : Prop :=
  ∀ (s : State) (input : TickInput) (w : Word),
    RunsNext s input → s.memReadWord s.pc.toNat = .ok w → decodeWord w = .error (.unrecognized w) →
    ∃ t, step s = .next t ∧ t.run = .halted .unrecognizedOpcode w ∧
      t.pc.toNat = (s.pc.toNat + 2) % 65536 ∧ t.keys = input.keysIn ∧ t.tone = false ∧
      t.instrCount = s.instrCount + 1 ∧
      SameBut [.RUN, .pc, .K, .rnd, .tone, .instrCount, .hostQueue] s t

/-- Once the core is finished or halted, however many events are delivered, none of them a Reset,
nothing changes but the record of the events (decision D11, log 20). -/
def Obligations.TerminalStateStaysWithoutReset : Prop :=
  ∀ (n : Nat) (s : State), s.run ≠ .running → (∀ rom font, HostEvent.reset rom font ∉ s.events) →
    ∃ t, core.run n s = .next t ∧ SameBut [.tone, .hostQueue] s t

/-- A Tick of a waiting core: with no key pressed it goes on waiting; otherwise the least pressed index
is written and the wait ends. No instruction runs (46_keypad.md section on R153; decisions D8, D25,
D29; log 18, 24). The timers may step. -/
def Obligations.WaitingTickResolvesTheLowestKey : Prop :=
  ∀ (s : State) (input : TickInput) (r : Nibble),
    s.run = .running → s.wait = .awaitingKey r → s.nextEvent.1 = .tick input →
    (input.keysIn = 0 → ∃ t, step s = .next t ∧ t.keys = 0 ∧
      SameBut [.K, .rnd, .DT, .ST, .tone, .hostQueue] s t) ∧
    (∀ k, k < 16 → input.keysIn.getLsbD k = true → (∀ j, j < k → input.keysIn.getLsbD j = false) →
      ∃ t, step s = .next t ∧ t.wait = .idle ∧ (t.reg r).toNat = k ∧ t.keys = input.keysIn ∧
        RegsSameBut [r] s t ∧ SameBut [.V, .WAIT, .K, .rnd, .DT, .ST, .tone, .hostQueue] s t)

/-- The end of a Tick: both timers step down by one, saturating at 0, exactly where the core is still
running and the step is due; the tone sounds exactly where the sound timer was nonzero before the step
(47_timers.md; decisions D9, D10, D11, D21; log 18, 19, 20). -/
def Obligations.TimerStepCountsDownAndSounds : Prop :=
  ∀ (s : State) (due : Bool),
    (s.run = .running → due = true →
      (s.endTick due).DT.toNat = s.DT.toNat - 1 ∧ (s.endTick due).ST.toNat = s.ST.toNat - 1 ∧
      ((s.endTick due).tone = true ↔ s.ST ≠ 0)) ∧
    (s.run ≠ .running ∨ due = false →
      (s.endTick due).DT = s.DT ∧ (s.endTick due).ST = s.ST ∧ (s.endTick due).tone = false) ∧
    SameBut [.DT, .ST, .tone] s (s.endTick due)

/-- The timers run down while the core waits for a key: `n` Ticks with no key and the step due take `n`
off each timer, down to 0, and run no instruction (46_keypad.md section on R154; decision D9, log
18). -/
def Obligations.TimersRunDownDuringTheWait : Prop :=
  ∀ (n : Nat) (s : State) (r : Nibble) (b : Byte) (rest : List HostEvent),
    s.run = .running → s.wait = .awaitingKey r →
    s.events = List.replicate n (.tick ⟨0, true, b⟩) ++ rest →
    ∃ t, core.run n s = .next t ∧ t.DT.toNat = s.DT.toNat - n ∧ t.ST.toNat = s.ST.toNat - n ∧
      t.events = rest ∧ SameBut [.K, .rnd, .DT, .ST, .tone, .hostQueue] s t

/-- RenderAck clears DIRTY and counts a render where it is enabled, and changes nothing where it is
not (45_display.md section on R143; decision D26, log 23). -/
def Obligations.RenderAckClearsDirtyWhereEnabled : Prop :=
  ∀ (s : State) (rest : List HostEvent), s.events = .renderAck :: rest →
    (s.run = .running → s.wait = .idle → s.dirty = true →
      ∃ t, step s = .next t ∧ t.dirty = false ∧ t.renderCount = s.renderCount + 1 ∧
        SameBut [.DIRTY, .renderCount, .hostQueue] s t) ∧
    (s.run ≠ .running ∨ s.wait ≠ .idle ∨ s.dirty = false →
      ∃ t, step s = .next t ∧ SameBut [.hostQueue] s t)

/-! ### Rules about the whole machine -/

/-- DIRTY is cleared by a RenderAck or a Reset and by nothing else (10_state.md section on R19). -/
def Obligations.OnlyRenderAckOrResetClearsDirty : Prop :=
  ∀ s t : State, step s = .next t → s.dirty = true → t.dirty = false →
    s.nextEvent.1 = .renderAck ∨ ∃ rom font, s.nextEvent.1 = .reset rom font

/-- Where a step that is no Reset changes a cell of the framebuffer, DIRTY is set after it, or the core
was halted by a fault part-way through a draw (45_display.md; decisions D13, D24; log 17, 21). -/
def Obligations.ChangedFramebufferIsDirtyOrHalted : Prop :=
  ∀ s t : State, step s = .next t → (∀ rom font, s.nextEvent.1 ≠ .reset rom font) →
    ¬Agrees s t .FB → t.dirty = true ∨ ∃ c info, t.run = .halted c info

/-- A wait for a key is entered only by a step that runs `WAITK` of that register (46_keypad.md section
on R154). -/
def Obligations.OnlyWaitkEntersTheWait : Prop :=
  ∀ (s t : State) (r : Nibble), step s = .next t → s.wait = .idle → t.wait = .awaitingKey r →
    ∃ input w, RunsNext s input ∧ s.memReadWord s.pc.toNat = .ok w ∧ decodeWord w = .ok (.waitk r)

/-- A run ends normally only by the self-jump of `JMP`: the word fetched is a `JMP nnn`, the same word
stands at `nnn`, and `pc` is `nnn` after it (60_exceptions.md section 5; decision D15, log 22). -/
def Obligations.OnlySelfJumpFinishes : Prop :=
  ∀ s t : State, step s = .next t → s.run = .running → t.run = .finished →
    ∃ input nnn w, RunsNext s input ∧ s.memReadWord s.pc.toNat = .ok w ∧
      decodeWord w = .ok (.jmp nnn) ∧ s.memReadWord nnn.toNat = .ok w ∧
      t.pc.toNat = nnn.toNat ∧ t.wait = .idle

/-- Every instruction answers a next state from every state, touches only the parts the "written by"
column of 10_state.md section 1 (and the faults of 60_exceptions.md R175) gives it, and among the
registers writes only its destinations. -/
def Obligations.InstructionWritesOnlyItsOwnParts : Prop :=
  ∀ (i : Instr) (s : State), ∃ t, exec i s = .next t ∧ SameBut (partsOf i) s t ∧
    RegsSameBut (destsOf i) s t

/-- The faults each instruction can raise itself, and that none finishes the run but `JMP`
(60_exceptions.md section 4; decisions D2, D4, D7; log 10, 12, 15). -/
def Obligations.FaultsByInstruction : Prop :=
  ∀ (i : Instr) (s t : State), s.run = .running → exec i s = .next t →
    match t.run with
    | .running => True
    | .finished => ∃ nnn, i = .jmp nnn
    | .halted .stackUnderflow _ => i = .ret
    | .halted .stackOverflow _ => ∃ nnn, i = .call nnn
    | .halted .invalidKeyIndex _ => ∃ x, i = .skp x ∨ i = .sknp x
    | .halted .outOfBoundsAccess _ | .halted .reservedRegionAccess _ =>
      (∃ x y n, i = .drw x y n) ∨ ∃ x, i = .bcd x ∨ i = .stm x ∨ i = .ldm x
    | .halted .unrecognizedOpcode _ => False

/-- The random byte influences no instruction but `RND` (43_load_alu.md section 5; decision D20, log
2). -/
def Obligations.RandomByteReachesOnlyRnd : Prop :=
  ∀ (i : Instr) (s : State) (b : Byte), (∀ x kk, i ≠ .rnd x kk) →
    exec i { s with rnd := b } = onNext (exec i s) (fun t => { t with rnd := b })

/-- The key vector influences no instruction but `SKP` and `SKNP` (46_keypad.md; 10_state.md section on
R20). -/
def Obligations.KeysReachOnlyKeySkips : Prop :=
  ∀ (i : Instr) (s : State) (k : BitVec 16), (∀ x, i ≠ .skp x) → (∀ x, i ≠ .sknp x) →
    exec i { s with keys := k } = onNext (exec i s) (fun t => { t with keys := k })

/-! ### System and control transfer -/

/-- `NOP` (41_system_flow.md R90): only the word 0x0000 is `NOP`; its rule changes nothing, and a step
that runs it, with no timer step due, changes nothing but what the Tick and the cycle change
anyway. -/
def Obligations.NopOnlyAdvances : Prop :=
  (∀ w, decodeWord w = .ok .nop ↔ w = 0x0000) ∧
  (∀ w : Word, opOf w = 0 → w ≠ 0x0000 → w ≠ 0x00E0 → w ≠ 0x00EE →
    decodeWord w = .error (.unrecognized w)) ∧
  (∀ s : State, ∃ t, exec .nop s = .next t ∧ SameBut [] s t) ∧
  (∀ (s : State) (input : TickInput), RunsNext s input → input.timerDue = false →
    s.memReadWord s.pc.toNat = .ok 0x0000 →
    ∃ t, step s = .next t ∧ t.pc.toNat = (s.pc.toNat + 2) % 65536 ∧
      SameBut [.pc, .K, .rnd, .tone, .instrCount, .hostQueue] s t)

/-- `RET` with a live entry: it is moved whole into `pc`, and stays in the array as a dead value
(41_system_flow.md section on R91). -/
def Obligations.RetPopsTheLastEntry : Prop :=
  ∀ (s : State) (j : Fin 16), s.sp.val = j.val + 1 →
    ∃ t, exec .ret s = .next t ∧ t.pc = s.stk[j.val] ∧ t.sp.val = j.val ∧ SameBut [.pc, .SP] s t

/-- `CALL nnn` with room on the stack: the advanced `pc` is pushed, the other entries stay, and `pc` is
`nnn` (41_system_flow.md section on R93). -/
def Obligations.CallPushesTheReturnAddress : Prop :=
  ∀ (s : State) (nnn : Addr) (j : Fin 16), s.sp.val = j.val →
    ∃ t, exec (.call nnn) s = .next t ∧ t.pc.toNat = nnn.toNat ∧ t.sp.val = j.val + 1 ∧
      t.stk[j.val] = s.pc ∧ (∀ k : Fin 16, k ≠ j → t.stk[k.val] = s.stk[k.val]) ∧
      SameBut [.pc, .SP, .STK] s t

/-- A `RET` after a `CALL` resumes after the call with the depth as before; the only stack entry that may
differ is the one the call wrote, dead again after the `RET` (41_system_flow.md section on R93). -/
def Obligations.RetAfterCallResumes : Prop :=
  ∀ (s : State) (nnn : Addr), s.sp.val < 16 →
    ∃ t u, exec (.call nnn) s = .next t ∧ exec .ret t = .next u ∧ u.pc = s.pc ∧ u.sp = s.sp ∧
      (∀ k : Fin 16, k.val ≠ s.sp.val → u.stk[k.val] = s.stk[k.val]) ∧ SameBut [.STK] s u

/-- `RET` with an empty stack and `CALL` with a full one halt the core, with nothing else changed
(decision D4, log 12). -/
def Obligations.StackLimitsHalt : Prop :=
  (∀ s : State, s.sp.val = 0 → ∃ t, exec .ret s = .next t ∧ t.run = .halted .stackUnderflow 0 ∧
    SameBut [.RUN] s t) ∧
  (∀ (s : State) (nnn : Addr), s.sp.val = 16 → ∃ t, exec (.call nnn) s = .next t ∧
    t.run = .halted .stackOverflow 16 ∧ SameBut [.RUN] s t)

/-- `JMP nnn`: `pc` is `nnn` in every case; the run is finished exactly where the target can be read and
holds this instruction's own word (41_system_flow.md section on R92; decision D15, log 22). -/
def Obligations.JmpSetsPcAndDetectsTheSelfJump : Prop :=
  ∀ (s : State) (nnn : Addr),
    ∃ t, exec (.jmp nnn) s = .next t ∧ t.pc.toNat = nnn.toNat ∧
      (s.memReadWord nnn.toNat = .ok (encodeWord (.jmp nnn)) → t.run = .finished) ∧
      (s.memReadWord nnn.toNat ≠ .ok (encodeWord (.jmp nnn)) → t.run = s.run) ∧
      SameBut [.pc, .RUN] s t

/-- `JMPV0 nnn`: `pc` is V0 + nnn, never reduced, and no self-jump is looked for (41_system_flow.md
section on R94). -/
def Obligations.JmpvZeroAddsVZero : Prop :=
  ∀ (s : State) (nnn : Addr),
    ∃ t, exec (.jmpv0 nnn) s = .next t ∧ t.pc.toNat = (s.reg 0).toNat + nnn.toNat ∧ SameBut [.pc] s t

/-! ### Skips -/

/-- The register-compare skips (42_skips.md R100 to R103): the words, the condition, and that nothing
but `pc` changes. -/
def Obligations.RegisterSkipsTestAndSkip : Prop :=
  (∀ (x : Nibble) (kk : Byte) (s : State),
    decodeWord (BitVec.ofNat 16 (0x3000 + x.toNat * 256 + kk.toNat)) = .ok (.sei x kk) ∧
    ∃ t, exec (.sei x kk) s = .next t ∧ SameBut [.pc] s t ∧
      t.pc.toNat = if (s.reg x).toNat = kk.toNat then (s.pc.toNat + 2) % 65536 else s.pc.toNat) ∧
  (∀ (x : Nibble) (kk : Byte) (s : State),
    decodeWord (BitVec.ofNat 16 (0x4000 + x.toNat * 256 + kk.toNat)) = .ok (.snei x kk) ∧
    ∃ t, exec (.snei x kk) s = .next t ∧ SameBut [.pc] s t ∧
      t.pc.toNat = if (s.reg x).toNat = kk.toNat then s.pc.toNat else (s.pc.toNat + 2) % 65536) ∧
  (∀ (x y : Nibble) (s : State),
    decodeWord (BitVec.ofNat 16 (0x5000 + x.toNat * 256 + y.toNat * 16)) = .ok (.ser x y) ∧
    ∃ t, exec (.ser x y) s = .next t ∧ SameBut [.pc] s t ∧
      t.pc.toNat =
        if (s.reg x).toNat = (s.reg y).toNat then (s.pc.toNat + 2) % 65536 else s.pc.toNat) ∧
  (∀ (x y : Nibble) (s : State),
    decodeWord (BitVec.ofNat 16 (0x9000 + x.toNat * 256 + y.toNat * 16)) = .ok (.sner x y) ∧
    ∃ t, exec (.sner x y) s = .next t ∧ SameBut [.pc] s t ∧
      t.pc.toNat =
        if (s.reg x).toNat = (s.reg y).toNat then s.pc.toNat else (s.pc.toNat + 2) % 65536) ∧
  (∀ x y n : Nibble, n ≠ 0 →
    decodeWord (formatXYN 0x5 x y n) = .error (.unrecognized (formatXYN 0x5 x y n)) ∧
    decodeWord (formatXYN 0x9 x y n) = .error (.unrecognized (formatXYN 0x9 x y n)))

/-! ### Load, arithmetic, logic, shift, random -/

/-- `LDI`, `ADDI`, `MOV` (43_load_alu.md R110 to R112): the words, the new value of Vx, and that nothing
else changes, VF included (unless x = F, where it is the destination). -/
def Obligations.LoadsAndImmediateAddSetOneRegister : Prop :=
  (∀ (x : Nibble) (kk : Byte) (s : State),
    decodeWord (BitVec.ofNat 16 (0x6000 + x.toNat * 256 + kk.toNat)) = .ok (.ldi x kk) ∧
    ∃ t, exec (.ldi x kk) s = .next t ∧ t.reg x = kk ∧ RegsSameBut [x] s t ∧ SameBut [.V] s t) ∧
  (∀ (x : Nibble) (kk : Byte) (s : State),
    decodeWord (BitVec.ofNat 16 (0x7000 + x.toNat * 256 + kk.toNat)) = .ok (.addi x kk) ∧
    ∃ t, exec (.addi x kk) s = .next t ∧ (t.reg x).toNat = ((s.reg x).toNat + kk.toNat) % 256 ∧
      RegsSameBut [x] s t ∧ SameBut [.V] s t) ∧
  (∀ (x y : Nibble) (s : State),
    decodeWord (BitVec.ofNat 16 (0x8000 + x.toNat * 256 + y.toNat * 16)) = .ok (.mov x y) ∧
    ∃ t, exec (.mov x y) s = .next t ∧ t.reg x = s.reg y ∧ RegsSameBut [x] s t ∧ SameBut [.V] s t)

/-- `OR`, `AND`, `XOR` (43_load_alu.md R113 to R115): the words, every bit of Vx, and that nothing else
changes, VF included (unless x = F). -/
def Obligations.LogicWorksBitByBit : Prop :=
  ∀ (x y : Nibble) (s : State),
    decodeWord (BitVec.ofNat 16 (0x8001 + x.toNat * 256 + y.toNat * 16)) = .ok (.or x y) ∧
    decodeWord (BitVec.ofNat 16 (0x8002 + x.toNat * 256 + y.toNat * 16)) = .ok (.and x y) ∧
    decodeWord (BitVec.ofNat 16 (0x8003 + x.toNat * 256 + y.toNat * 16)) = .ok (.xor x y) ∧
    (∃ t, exec (.or x y) s = .next t ∧ RegsSameBut [x] s t ∧ SameBut [.V] s t ∧
      ∀ i, i < 8 → (t.reg x).getLsbD i = ((s.reg x).getLsbD i || (s.reg y).getLsbD i)) ∧
    (∃ t, exec (.and x y) s = .next t ∧ RegsSameBut [x] s t ∧ SameBut [.V] s t ∧
      ∀ i, i < 8 → (t.reg x).getLsbD i = ((s.reg x).getLsbD i && (s.reg y).getLsbD i)) ∧
    (∃ t, exec (.xor x y) s = .next t ∧ RegsSameBut [x] s t ∧ SameBut [.V] s t ∧
      ∀ i, i < 8 → (t.reg x).getLsbD i = ((s.reg x).getLsbD i ^^ (s.reg y).getLsbD i))

/-- `ADD Vx, Vy`: the low 8 bits of the sum in Vx; where x is not F, the carry in VF (43_load_alu.md
section 3). With x = F the data result stays in VF, and y = F reads the old VF: decision D5, log 13. -/
def Obligations.AddGivesSumAndCarry : Prop :=
  ∀ (x y : Nibble) (s : State),
    ∃ t, exec (.add x y) s = .next t ∧
      (t.reg x).toNat = ((s.reg x).toNat + (s.reg y).toNat) % 256 ∧
      (x ≠ 0xF → (t.reg 0xF).toNat = if (s.reg x).toNat + (s.reg y).toNat > 255 then 1 else 0) ∧
      RegsSameBut [x, 0xF] s t ∧ SameBut [.V] s t

/-- `SUB` and `SUBN`: the wrapped difference in Vx; where x is not F, VF is 1 exactly where the minuend is
strictly greater (43_load_alu.md section 3; equal operands give 0 by decision D23, log 16; x = F and
y = F by decision D5, log 13). -/
def Obligations.SubtractionsGiveDifferenceAndFlag : Prop :=
  ∀ (x y : Nibble) (s : State),
    (∃ t, exec (.sub x y) s = .next t ∧
      (t.reg x).toNat = ((s.reg x).toNat + 256 - (s.reg y).toNat) % 256 ∧
      (x ≠ 0xF → (t.reg 0xF).toNat = if (s.reg x).toNat > (s.reg y).toNat then 1 else 0) ∧
      RegsSameBut [x, 0xF] s t ∧ SameBut [.V] s t) ∧
    (∃ t, exec (.subn x y) s = .next t ∧
      (t.reg x).toNat = ((s.reg y).toNat + 256 - (s.reg x).toNat) % 256 ∧
      (x ≠ 0xF → (t.reg 0xF).toNat = if (s.reg y).toNat > (s.reg x).toNat then 1 else 0) ∧
      RegsSameBut [x, 0xF] s t ∧ SameBut [.V] s t)

/-- `SHR` and `SHL`: half and double of Vx, whatever y is; where x is not F, the bit shifted out in VF
(43_load_alu.md section 4). With x = F the result stays in VF: decision D5, log 13. -/
def Obligations.ShiftsMoveOneBitOut : Prop :=
  ∀ (x y : Nibble) (s : State),
    (∃ t, exec (.shr x y) s = .next t ∧ (t.reg x).toNat = (s.reg x).toNat / 2 ∧
      (x ≠ 0xF → (t.reg 0xF).toNat = (s.reg x).toNat % 2) ∧
      RegsSameBut [x, 0xF] s t ∧ SameBut [.V] s t) ∧
    (∃ t, exec (.shl x y) s = .next t ∧ (t.reg x).toNat = 2 * (s.reg x).toNat % 256 ∧
      (x ≠ 0xF → (t.reg 0xF).toNat = (s.reg x).toNat / 128) ∧
      RegsSameBut [x, 0xF] s t ∧ SameBut [.V] s t)

/-- `RND Vx, kk`: the Tick's random byte, masked (43_load_alu.md section 5; the byte is any byte:
decision D20, log 2). -/
def Obligations.RndMasksTheTicksByte : Prop :=
  ∀ (x : Nibble) (kk : Byte) (s : State),
    ∃ t, exec (.rnd x kk) s = .next t ∧
      (∀ i, i < 8 → (t.reg x).getLsbD i = (s.rnd.getLsbD i && kk.getLsbD i)) ∧
      RegsSameBut [x] s t ∧ SameBut [.V] s t

/-! ### Index register and memory -/

/-- `LDIX nnn` (44_index_memory.md R130): the word, and I is nnn; no address is checked. -/
def Obligations.LdixLoadsTheIndex : Prop :=
  ∀ (nnn : Addr) (s : State),
    decodeWord (BitVec.ofNat 16 (0xA000 + nnn.toNat)) = .ok (.ldix nnn) ∧
    ∃ t, exec (.ldix nnn) s = .next t ∧ t.I.toNat = nnn.toNat ∧ SameBut [.I] s t

/-- `ADDIX` wraps modulo 65536 (decision D6, log 14) and writes no flag; `FONT` gives five times the
whole byte (44_index_memory.md section 1). -/
def Obligations.AddixAndFontComputeTheIndex : Prop :=
  ∀ (x : Nibble) (s : State),
    (∃ t, exec (.addix x) s = .next t ∧ t.I.toNat = (s.I.toNat + (s.reg x).toNat) % 65536 ∧
      SameBut [.I] s t) ∧
    (∃ t, exec (.font x) s = .next t ∧ t.I.toNat = 5 * (s.reg x).toNat ∧ SameBut [.I] s t)

/-- `BCD Vx` where its three bytes may be accessed: the digits, and no other byte (44_index_memory.md
section 2). -/
def Obligations.BcdStoresThreeDigits : Prop :=
  ∀ (x : Nibble) (s : State), s.mem.wf = true → Accessible s.dataBase 3 →
    ∃ t, exec (.bcd x) s = .next t ∧
      (t.mem.read s.dataBase).toNat = (s.reg x).toNat / 100 ∧
      (t.mem.read (s.dataBase + 1)).toNat = (s.reg x).toNat / 10 % 10 ∧
      (t.mem.read (s.dataBase + 2)).toNat = (s.reg x).toNat % 10 ∧
      MemSameOutside s.dataBase 3 s t ∧ SameBut [.MEM] s t

/-- `STM Vx` where its x + 1 bytes may be accessed: V0 to Vx, ascending, and no other byte
(44_index_memory.md section 2). -/
def Obligations.StmStoresTheRegisters : Prop :=
  ∀ (x : Nibble) (s : State), s.mem.wf = true → Accessible s.dataBase (x.toNat + 1) →
    ∃ t, exec (.stm x) s = .next t ∧
      (∀ r : Nibble, r.toNat ≤ x.toNat → t.mem.read (s.dataBase + r.toNat) = s.reg r) ∧
      MemSameOutside s.dataBase (x.toNat + 1) s t ∧ SameBut [.MEM] s t

/-- `LDM Vx` where its x + 1 bytes may be accessed: V0 to Vx, ascending, and no other register
(44_index_memory.md section 3). -/
def Obligations.LdmLoadsTheRegisters : Prop :=
  ∀ (x : Nibble) (s : State), Accessible s.dataBase (x.toNat + 1) →
    ∃ t, exec (.ldm x) s = .next t ∧
      (∀ r : Nibble, r.toNat ≤ x.toNat → t.reg r = s.mem.read (s.dataBase + r.toNat)) ∧
      (∀ r : Nibble, x.toNat < r.toNat → t.reg r = s.reg r) ∧ SameBut [.V] s t

/-- `STM` or `BCD` that faults at byte k keeps the k bytes already stored, stores no other, and halts with
that byte's trap (decision D13, log 21; 60_exceptions.md section 2). -/
def Obligations.StoreFaultKeepsTheBytesStored : Prop :=
  (∀ (x k : Nibble) (s : State) (f : Trap), s.mem.wf = true → k.toNat ≤ x.toNat →
    Accessible s.dataBase k.toNat → checkAddress (s.dataBase + k.toNat) = some f →
    ∃ t, exec (.stm x) s = .next t ∧ t.run = .halted f.cause f.info ∧
      (∀ r : Nibble, r.toNat < k.toNat → t.mem.read (s.dataBase + r.toNat) = s.reg r) ∧
      MemSameOutside s.dataBase k.toNat s t ∧ SameBut [.MEM, .RUN] s t) ∧
  (∀ (x : Nibble) (k : Fin 3) (s : State) (f : Trap), s.mem.wf = true →
    Accessible s.dataBase k.val → checkAddress (s.dataBase + k.val) = some f →
    ∃ t, exec (.bcd x) s = .next t ∧ t.run = .halted f.cause f.info ∧
      (0 < k.val → (t.mem.read s.dataBase).toNat = (s.reg x).toNat / 100) ∧
      (1 < k.val → (t.mem.read (s.dataBase + 1)).toNat = (s.reg x).toNat / 10 % 10) ∧
      MemSameOutside s.dataBase k.val s t ∧ SameBut [.MEM, .RUN] s t)

/-- `LDM` that faults at byte k keeps the k registers already loaded and halts with that byte's trap
(decision D13, log 21; 60_exceptions.md section 2). -/
def Obligations.LdmFaultKeepsTheRegistersLoaded : Prop :=
  ∀ (x k : Nibble) (s : State) (f : Trap), k.toNat ≤ x.toNat →
    Accessible s.dataBase k.toNat → checkAddress (s.dataBase + k.toNat) = some f →
    ∃ t, exec (.ldm x) s = .next t ∧ t.run = .halted f.cause f.info ∧
      (∀ r : Nibble, r.toNat < k.toNat → t.reg r = s.mem.read (s.dataBase + r.toNat)) ∧
      (∀ r : Nibble, k.toNat ≤ r.toNat → t.reg r = s.reg r) ∧ SameBut [.V, .RUN] s t

/-! ### Display -/

/-- `CLS` (45_display.md R140): every cell is 0 after it; DIRTY is set if some cell was 1 and is
otherwise as it was; VF is not written. -/
def Obligations.ClsClearsEveryCell : Prop :=
  (∀ w, decodeWord w = .ok .cls ↔ w = 0x00E0) ∧
  ∀ s : State, ∃ t, exec .cls s = .next t ∧ (∀ row col, t.fb.cell row col = false) ∧
    ((∃ row col, s.fb.cell row col = true) → t.dirty = true) ∧
    ((∀ row col, s.fb.cell row col = false) → t.dirty = s.dirty) ∧
    SameBut [.FB, .DIRTY] s t

/-- `DRW Vx, Vy, n` where its n rows may be read (45_display.md section on R141): every cell a 1 bit of the
sprite lands on is toggled and no other; VF is 1 exactly where such a cell was 1, and 0 otherwise; DIRTY
is set exactly where there is such a cell (decision D24, log 17), and kept otherwise. The coordinates
are the values before the instruction, also for x = F or y = F (decision D5, log 13). -/
def Obligations.DrwTogglesTheSpritesCells : Prop :=
  ∀ (x y n : Nibble) (s : State), Accessible s.dataBase n.toNat →
    let hits := spriteHits s.mem s.dataBase (s.reg x) (s.reg y) n.toNat 0
    ∃ t, exec (.drw x y n) s = .next t ∧
      (∀ row col, t.fb.cell row col = (s.fb.cell row col ^^ hits row col)) ∧
      ((∃ row col, hits row col = true ∧ s.fb.cell row col = true) → t.reg 0xF = 1) ∧
      ((∀ row col, hits row col = true → s.fb.cell row col = false) → t.reg 0xF = 0) ∧
      ((∃ row col, hits row col = true) → t.dirty = true) ∧
      ((∀ row col, hits row col = false) → t.dirty = s.dirty) ∧
      RegsSameBut [0xF] s t ∧ SameBut [.V, .FB, .DIRTY] s t

/-- `DRW` that faults at row k: the k rows before it are drawn, VF is 0, DIRTY is as it was, and the core
is halted with that row's trap (decision D13, log 21). -/
def Obligations.DrwFaultKeepsTheRowsDrawn : Prop :=
  ∀ (x y n k : Nibble) (s : State) (f : Trap), k.toNat < n.toNat →
    Accessible s.dataBase k.toNat → checkAddress (s.dataBase + k.toNat) = some f →
    ∃ t, exec (.drw x y n) s = .next t ∧ t.run = .halted f.cause f.info ∧ t.reg 0xF = 0 ∧
      (∀ row col, t.fb.cell row col = (s.fb.cell row col ^^
        spriteHits s.mem s.dataBase (s.reg x) (s.reg y) k.toNat 0 row col)) ∧
      RegsSameBut [0xF] s t ∧ SameBut [.V, .FB, .RUN] s t

/-- Drawing the same sprite twice at the same place restores the framebuffer exactly; after the second
draw VF is 1 exactly where some cell the sprite hits was 0 before the first (45_display.md section on
R142). With x = F or y = F the second draw's coordinates are not the first's, so they are excluded
here; `DrwTogglesTheSpritesCells` covers those forms. -/
def Obligations.DrawingTwiceRestoresTheFramebuffer : Prop :=
  ∀ (x y n : Nibble) (s : State), x ≠ 0xF → y ≠ 0xF → Accessible s.dataBase n.toNat →
    ∃ t u, exec (.drw x y n) s = .next t ∧ exec (.drw x y n) t = .next u ∧ Agrees s u .FB ∧
      ((∃ row col, spriteHits s.mem s.dataBase (s.reg x) (s.reg y) n.toNat 0 row col = true ∧
        s.fb.cell row col = false) → u.reg 0xF = 1) ∧
      ((∀ row col, spriteHits s.mem s.dataBase (s.reg x) (s.reg y) n.toNat 0 row col = true →
        s.fb.cell row col = true) → u.reg 0xF = 0)

/-! ### Keypad and timers -/

/-- `SKP` and `SKNP` with a key index of 0 to 15 test that key of this Tick; above 15 they halt the core
(46_keypad.md section on R150, R151; the halt is decision D7, log 15). -/
def Obligations.KeySkipsTestTheKey : Prop :=
  ∀ (x : Nibble) (s : State),
    ((s.reg x).toNat ≤ 15 → ∃ t, exec (.skp x) s = .next t ∧ SameBut [.pc] s t ∧
      t.pc.toNat =
        if s.keys.getLsbD (s.reg x).toNat then (s.pc.toNat + 2) % 65536 else s.pc.toNat) ∧
    ((s.reg x).toNat ≤ 15 → ∃ t, exec (.sknp x) s = .next t ∧ SameBut [.pc] s t ∧
      t.pc.toNat =
        if s.keys.getLsbD (s.reg x).toNat then s.pc.toNat else (s.pc.toNat + 2) % 65536) ∧
    (15 < (s.reg x).toNat → ∃ t info, exec (.skp x) s = .next t ∧ exec (.sknp x) s = .next t ∧
      t.run = .halted .invalidKeyIndex info ∧ info.toNat = (s.reg x).toNat ∧ SameBut [.RUN] s t)

/-- `WAITK Vx` (46_keypad.md R152): the word, and that it only enters the wait for register x, whatever
keys are pressed; a Tick that runs it in a running core leaves Vx as it was. -/
def Obligations.WaitkEntersTheWait : Prop :=
  ∀ (x : Nibble) (s : State),
    decodeWord (BitVec.ofNat 16 (0xF00A + x.toNat * 256)) = .ok (.waitk x) ∧
    (∃ t, exec (.waitk x) s = .next t ∧ t.wait = .awaitingKey x ∧ SameBut [.WAIT] s t) ∧
    (∀ input, RunsNext s input → s.memReadWord s.pc.toNat = .ok (formatXK 0xF x 0x0A) →
      ∃ t, step s = .next t ∧ t.wait = .awaitingKey x ∧ t.run = .running ∧
        t.pc.toNat = (s.pc.toNat + 2) % 65536 ∧ Agrees s t .V)

/-- `LDDT`, `STDT`, `STST` (47_timers.md): what each writes, and that it writes nothing else. -/
def Obligations.TimerInstructionsMoveTheTimers : Prop :=
  ∀ (x : Nibble) (s : State),
    (∃ t, exec (.lddt x) s = .next t ∧ t.reg x = s.DT ∧ RegsSameBut [x] s t ∧ SameBut [.V] s t) ∧
    (∃ t, exec (.stdt x) s = .next t ∧ t.DT = s.reg x ∧ SameBut [.DT] s t) ∧
    (∃ t, exec (.stst x) s = .next t ∧ t.ST = s.reg x ∧ SameBut [.ST] s t)

/-- A Tick whose timer step is due runs its instruction first: `LDDT` reads DT before the step, a value
set by `STDT` or `STST` is already stepped at the end of the same Tick, and `STST` of a nonzero value
sounds in it (40_engine_cycle.md section 2, readings (b), (c); decisions D9, D10; log 18, 19). -/
def Obligations.TimerStepFollowsTheInstruction : Prop :=
  ∀ (s : State) (input : TickInput) (x : Nibble) (w : Word),
    RunsNext s input → input.timerDue = true → s.memReadWord s.pc.toNat = .ok w →
    (w = formatXK 0xF x 0x07 → ∃ t, step s = .next t ∧ t.reg x = s.DT ∧
      t.DT.toNat = s.DT.toNat - 1 ∧ t.ST.toNat = s.ST.toNat - 1) ∧
    (w = formatXK 0xF x 0x15 → ∃ t, step s = .next t ∧ t.DT.toNat = (s.reg x).toNat - 1 ∧
      t.ST.toNat = s.ST.toNat - 1) ∧
    (w = formatXK 0xF x 0x18 → ∃ t, step s = .next t ∧ t.ST.toNat = (s.reg x).toNat - 1 ∧
      t.DT.toNat = s.DT.toNat - 1 ∧ (t.tone = true ↔ s.reg x ≠ 0))
end

