-- ==== Sys2Proof/Laws/Decode.lean ====
section
/-!
SUPPORT. The fields of a word built by a format (30_encoding.md R61, R62), and the two bytes of a word.
-/

namespace Sys2Proof

theorem opOf_toNat (w : Word) : (opOf w).toNat = w.toNat / 4096 := by
  have := w.isLt
  simp only [opOf, BitVec.extractLsb'_toNat, Nat.shiftRight_eq_div_pow]
  omega

theorem xOf_toNat (w : Word) : (xOf w).toNat = w.toNat / 256 % 16 := by
  simp [xOf, BitVec.extractLsb'_toNat, Nat.shiftRight_eq_div_pow]

theorem yOf_toNat (w : Word) : (yOf w).toNat = w.toNat / 16 % 16 := by
  simp [yOf, BitVec.extractLsb'_toNat, Nat.shiftRight_eq_div_pow]

theorem nOf_toNat (w : Word) : (nOf w).toNat = w.toNat % 16 := by
  simp [nOf, BitVec.extractLsb'_toNat]

theorem kkOf_toNat (w : Word) : (kkOf w).toNat = w.toNat % 256 := by
  simp [kkOf, BitVec.extractLsb'_toNat]

theorem nnnOf_toNat (w : Word) : (nnnOf w).toNat = w.toNat % 4096 := by
  simp [nnnOf, BitVec.extractLsb'_toNat]

theorem formatA_toNat (op : Nibble) (nnn : Addr) :
    (formatA op nnn).toNat = op.toNat * 4096 + nnn.toNat := by
  have := op.isLt
  have := nnn.isLt
  simp only [formatA, BitVec.toNat_ofNat]
  omega

theorem formatXK_toNat (op x : Nibble) (kk : Byte) :
    (formatXK op x kk).toNat = op.toNat * 4096 + x.toNat * 256 + kk.toNat := by
  have := op.isLt
  have := x.isLt
  have := kk.isLt
  simp only [formatXK, BitVec.toNat_ofNat]
  omega

theorem formatXYN_toNat (op x y n : Nibble) :
    (formatXYN op x y n).toNat = op.toNat * 4096 + x.toNat * 256 + y.toNat * 16 + n.toNat := by
  have := op.isLt
  have := x.isLt
  have := y.isLt
  have := n.isLt
  simp only [formatXYN, BitVec.toNat_ofNat]
  omega

@[simp] theorem opOf_formatA (op : Nibble) (nnn : Addr) : opOf (formatA op nnn) = op := by
  apply BitVec.eq_of_toNat_eq
  have := nnn.isLt
  rw [opOf_toNat, formatA_toNat]
  omega

@[simp] theorem nnnOf_formatA (op : Nibble) (nnn : Addr) : nnnOf (formatA op nnn) = nnn := by
  apply BitVec.eq_of_toNat_eq
  have := nnn.isLt
  rw [nnnOf_toNat, formatA_toNat]
  omega

@[simp] theorem opOf_formatXK (op x : Nibble) (kk : Byte) : opOf (formatXK op x kk) = op := by
  apply BitVec.eq_of_toNat_eq
  have := x.isLt
  have := kk.isLt
  rw [opOf_toNat, formatXK_toNat]
  omega

@[simp] theorem xOf_formatXK (op x : Nibble) (kk : Byte) : xOf (formatXK op x kk) = x := by
  apply BitVec.eq_of_toNat_eq
  have := x.isLt
  have := kk.isLt
  rw [xOf_toNat, formatXK_toNat]
  omega

@[simp] theorem kkOf_formatXK (op x : Nibble) (kk : Byte) : kkOf (formatXK op x kk) = kk := by
  apply BitVec.eq_of_toNat_eq
  have := kk.isLt
  rw [kkOf_toNat, formatXK_toNat]
  omega

@[simp] theorem opOf_formatXYN (op x y n : Nibble) : opOf (formatXYN op x y n) = op := by
  apply BitVec.eq_of_toNat_eq
  have := x.isLt
  have := y.isLt
  have := n.isLt
  rw [opOf_toNat, formatXYN_toNat]
  omega

@[simp] theorem xOf_formatXYN (op x y n : Nibble) : xOf (formatXYN op x y n) = x := by
  apply BitVec.eq_of_toNat_eq
  have := x.isLt
  have := y.isLt
  have := n.isLt
  rw [xOf_toNat, formatXYN_toNat]
  omega

@[simp] theorem yOf_formatXYN (op x y n : Nibble) : yOf (formatXYN op x y n) = y := by
  apply BitVec.eq_of_toNat_eq
  have := y.isLt
  have := n.isLt
  rw [yOf_toNat, formatXYN_toNat]
  omega

@[simp] theorem nOf_formatXYN (op x y n : Nibble) : nOf (formatXYN op x y n) = n := by
  apply BitVec.eq_of_toNat_eq
  have := n.isLt
  rw [nOf_toNat, formatXYN_toNat]
  omega

theorem highByte_toNat (w : Word) : (highByte w).toNat = w.toNat / 256 := by
  have := w.isLt
  simp only [highByte, BitVec.extractLsb'_toNat, Nat.shiftRight_eq_div_pow]
  omega

theorem lowByte_toNat (w : Word) : (lowByte w).toNat = w.toNat % 256 := by
  simp [lowByte, BitVec.extractLsb'_toNat]

theorem wordOfBytes_toNat (hi lo : Byte) : (wordOfBytes hi lo).toNat = hi.toNat * 256 + lo.toNat := by
  have := hi.isLt
  have := lo.isLt
  simp only [wordOfBytes, BitVec.toNat_ofNat]
  omega

/-- A word is put together again from its two bytes (20_memory.md R45). -/
@[simp] theorem wordOfBytes_bytes (w : Word) : wordOfBytes (highByte w) (lowByte w) = w := by
  apply BitVec.eq_of_toNat_eq
  rw [wordOfBytes_toNat, highByte_toNat, lowByte_toNat]
  omega

/-- A word from two bytes splits into them. -/
@[simp] theorem highByte_wordOfBytes (hi lo : Byte) : highByte (wordOfBytes hi lo) = hi := by
  apply BitVec.eq_of_toNat_eq
  have := lo.isLt
  rw [highByte_toNat, wordOfBytes_toNat]
  omega

@[simp] theorem lowByte_wordOfBytes (hi lo : Byte) : lowByte (wordOfBytes hi lo) = lo := by
  apply BitVec.eq_of_toNat_eq
  have := lo.isLt
  rw [lowByte_toNat, wordOfBytes_toNat]
  omega

end Sys2Proof
end

