-- ==== Sys2Proof/Laws/Memory.lean ====
section
/-!
SUPPORT. The laws of the raw store: a read after a write, and that every operation keeps the canonical
form (20_memory.md R44, R50; `Memory.wf`).
-/

namespace Sys2Proof.Machine.Memory

/-! ### Lists of cells -/

theorem find_insert (a : Nat) (v : Byte) (b : Nat) (cs : List Host.Cell) :
    find (insert a v cs) b = if b = a then some v else find cs b := by
  induction cs with
  | nil => simp [insert, find, eq_comm (a := a)]
  | cons c rest ih =>
    obtain ⟨k, w⟩ := c
    simp only [insert]
    split
    · simp only [find, eq_comm (a := a)]
    · split
      · subst_vars
        by_cases h : b = k
        · simp [find, h]
        · have h' : ¬k = b := fun e => h e.symm
          simp [find, h, h']
      · simp only [find, ih]
        by_cases h : b = a
        · simp [h, show ¬k = a by omega]
        · simp [h]

theorem find_of_rising {cs : List Host.Cell} {lo b : Nat} (h : rising lo cs = true) (hb : b < lo) :
    find cs b = none := by
  induction cs generalizing lo with
  | nil => rfl
  | cons c rest ih =>
    obtain ⟨k, w⟩ := c
    simp only [rising, Bool.and_eq_true, decide_eq_true_eq] at h
    simp only [find]
    rw [if_neg (by omega), ih h.2 (by omega)]

theorem find_erase {cs : List Host.Cell} {lo : Nat} (h : rising lo cs = true) (a b : Nat) :
    find (erase a cs) b = if b = a then none else find cs b := by
  induction cs generalizing lo with
  | nil => simp [erase, find]
  | cons c rest ih =>
    obtain ⟨k, w⟩ := c
    simp only [rising, Bool.and_eq_true, decide_eq_true_eq] at h
    simp only [erase]
    split
    · subst_vars
      by_cases hb : b = k
      · subst hb
        simp [find_of_rising h.2 (Nat.lt_succ_self b)]
      · have : ¬k = b := fun e => hb e.symm
        simp [find, hb, this]
    · simp only [find, ih h.2]
      by_cases hb : b = a
      · simp [hb, show ¬k = a by omega]
      · simp [hb]

theorem rising_mono {cs : List Host.Cell} {lo lo' : Nat} (h : rising lo cs = true) (hl : lo' ≤ lo) :
    rising lo' cs = true := by
  cases cs with
  | nil => rfl
  | cons c rest =>
    simp only [rising, Bool.and_eq_true, decide_eq_true_eq] at h ⊢
    exact ⟨by omega, h.2⟩

theorem rising_insert {cs : List Host.Cell} {lo : Nat} (h : rising lo cs = true) (a : Nat) (v : Byte)
    (ha : lo ≤ a) : rising lo (insert a v cs) = true := by
  induction cs generalizing lo with
  | nil => simp [insert, rising, ha]
  | cons c rest ih =>
    obtain ⟨k, w⟩ := c
    simp only [rising, Bool.and_eq_true, decide_eq_true_eq] at h
    simp only [insert]
    split
    · simp only [rising, Bool.and_eq_true, decide_eq_true_eq]
      exact ⟨ha, by omega, h.2⟩
    · split
      · subst_vars
        simp only [rising, Bool.and_eq_true, decide_eq_true_eq]
        exact ⟨ha, h.2⟩
      · simp only [rising, Bool.and_eq_true, decide_eq_true_eq]
        exact ⟨h.1, ih h.2 (by omega)⟩

theorem rising_erase {cs : List Host.Cell} {lo : Nat} (h : rising lo cs = true) (a : Nat) :
    rising lo (erase a cs) = true := by
  induction cs generalizing lo with
  | nil => rfl
  | cons c rest ih =>
    obtain ⟨k, w⟩ := c
    simp only [rising, Bool.and_eq_true, decide_eq_true_eq] at h
    simp only [erase]
    split
    · exact rising_mono h.2 (by omega)
    · simp only [rising, Bool.and_eq_true, decide_eq_true_eq]
      exact ⟨h.1, ih h.2⟩

theorem mem_insert {c : Host.Cell} {a : Nat} {v : Byte} {cs : List Host.Cell}
    (h : c ∈ insert a v cs) : c = (a, v) ∨ c ∈ cs := by
  induction cs with
  | nil => simpa [insert] using h
  | cons d rest ih =>
    obtain ⟨k, w⟩ := d
    simp only [insert] at h
    split at h
    · simpa using h
    · split at h
      · rcases List.mem_cons.mp h with h | h
        · exact .inl h
        · exact .inr (List.mem_cons_of_mem _ h)
      · rcases List.mem_cons.mp h with h | h
        · exact .inr (h ▸ List.mem_cons_self)
        · rcases ih h with h | h
          · exact .inl h
          · exact .inr (List.mem_cons_of_mem _ h)

theorem mem_erase {c : Host.Cell} {a : Nat} {cs : List Host.Cell} (h : c ∈ erase a cs) : c ∈ cs := by
  induction cs with
  | nil => exact h
  | cons d rest ih =>
    obtain ⟨k, w⟩ := d
    simp only [erase] at h
    split at h
    · exact List.mem_cons_of_mem _ h
    · rcases List.mem_cons.mp h with h | h
      · exact h ▸ List.mem_cons_self
      · exact List.mem_cons_of_mem _ (ih h)

/-! ### The store -/

@[simp] theorem write_font (m : Memory) (a : Nat) (v : Byte) : (m.write a v).font = m.font := by
  unfold write
  split <;> rfl

@[simp] theorem unlisted_write (m : Memory) (a b : Nat) (v : Byte) :
    (m.write a v).unlisted b = m.unlisted b := by
  unfold unlisted
  simp

theorem wf_iff (m : Memory) : m.wf = true ↔
    rising 0 m.cells = true ∧ ∀ c ∈ m.cells, c.1 < 4096 ∧ c.2 ≠ m.unlisted c.1 := by
  simp [wf]

/-- A write is seen at its own address and nowhere else (R44). -/
theorem read_write {m : Memory} (h : m.wf = true) (a b : Nat) (v : Byte) :
    (m.write a v).read b = if b = a then v else m.read b := by
  have hr := ((wf_iff m).mp h).1
  have hu := unlisted_write m a b v
  unfold read
  rw [hu]
  unfold write
  split
  · simp only [find_erase hr]
    by_cases hb : b = a
    · simp_all
    · simp [hb]
  · simp only [find_insert]
    by_cases hb : b = a
    · simp [hb]
    · simp [hb]

/-- A write within the store keeps the canonical form. -/
theorem wf_write {m : Memory} (h : m.wf = true) {a : Nat} (ha : a < 4096) (v : Byte) :
    (m.write a v).wf = true := by
  obtain ⟨hr, hc⟩ := (wf_iff m).mp h
  rw [wf_iff]
  simp only [unlisted_write]
  unfold write
  split
  · exact ⟨rising_erase hr a, fun c hm => hc c (mem_erase hm)⟩
  · rename_i hv
    refine ⟨rising_insert hr a v (Nat.zero_le a), fun c hm => ?_⟩
    rcases mem_insert hm with rfl | hm
    · exact ⟨ha, hv⟩
    · exact hc c hm

/-- Writing a list of bytes: each lands at its own address, every other address keeps its byte. -/
theorem read_writeAll {m : Memory} (h : m.wf = true) (a : Nat) (vs : List Byte)
    (ha : a + vs.length ≤ 4096) (b : Nat) :
    (m.writeAll a vs).read b =
      if hb : a ≤ b ∧ b < a + vs.length then vs[b - a]'(by omega) else m.read b := by
  induction vs generalizing m a with
  | nil => simp [writeAll]
  | cons v rest ih =>
    simp only [List.length_cons] at ha ⊢
    simp only [writeAll]
    rw [ih (wf_write h (by omega) v) (a + 1) (by omega), read_write h]
    by_cases hb : b = a
    · subst hb
      simp
    · by_cases hb' : a + 1 ≤ b ∧ b < a + 1 + rest.length
      · rw [dif_pos hb', dif_pos (by omega)]
        simp only [show b - a = (b - (a + 1)) + 1 by omega, List.getElem_cons_succ]
      · rw [dif_neg hb', dif_neg (by omega)]
        simp [hb]

theorem wf_writeAll {m : Memory} (h : m.wf = true) (a : Nat) (vs : List Byte)
    (ha : a + vs.length ≤ 4096) : (m.writeAll a vs).wf = true := by
  induction vs generalizing m a with
  | nil => exact h
  | cons v rest ih =>
    simp only [List.length_cons] at ha
    exact ih (wf_write h (by omega) v) (a + 1) (by omega)

@[simp] theorem writeAll_font (m : Memory) (a : Nat) (vs : List Byte) :
    (m.writeAll a vs).font = m.font := by
  induction vs generalizing m a with
  | nil => rfl
  | cons v rest ih => simp [writeAll, ih]

theorem wf_ofLaunch {rom font : List Byte} (h : rom.length ≤ 3584) :
    (ofLaunch rom font).wf = true := by
  apply wf_writeAll (m := { font := _, cells := [] }) rfl
  show 0x200 + rom.length ≤ 4096
  omega

/-- The memory of a launch, byte by byte (R190): the font, the ROM from 0x200 on, 0 elsewhere. -/
theorem read_ofLaunch {rom font : List Byte} (h : rom.length ≤ 3584) (hf : font.length = 80) (a : Nat) :
    (ofLaunch rom font).read a =
      if h : a < 80 then font[a]
      else if h' : 0x200 ≤ a ∧ a < 0x200 + rom.length then rom[a - 0x200]'(by omega) else 0 := by
  unfold ofLaunch
  rw [read_writeAll rfl 0x200 _ (by omega)]
  by_cases h1 : a < 80
  · rw [dif_neg (by omega), dif_pos h1]
    simp [read, find, unlisted, h1, hf]
  · rw [dif_neg h1]
    split
    · rfl
    · simp [read, find, unlisted, h1]

end Sys2Proof.Machine.Memory
end

