-- ==== Sys2Proof/Laws/State.lean ====
section
/-!
SUPPORT. The fields of an updated state: one lemma per field per update, so that no later proof
unfolds a record update.
-/

namespace Sys2Proof.Machine.State

@[simp] theorem setReg_I (s : State) (x : Nibble) (v : Byte) : (s.setReg x v).I = s.I := rfl
@[simp] theorem setReg_pc (s : State) (x : Nibble) (v : Byte) : (s.setReg x v).pc = s.pc := rfl
@[simp] theorem setReg_stk (s : State) (x : Nibble) (v : Byte) : (s.setReg x v).stk = s.stk := rfl
@[simp] theorem setReg_sp (s : State) (x : Nibble) (v : Byte) : (s.setReg x v).sp = s.sp := rfl
@[simp] theorem setReg_DT (s : State) (x : Nibble) (v : Byte) : (s.setReg x v).DT = s.DT := rfl
@[simp] theorem setReg_ST (s : State) (x : Nibble) (v : Byte) : (s.setReg x v).ST = s.ST := rfl
@[simp] theorem setReg_fb (s : State) (x : Nibble) (v : Byte) : (s.setReg x v).fb = s.fb := rfl
@[simp] theorem setReg_dirty (s : State) (x : Nibble) (v : Byte) : (s.setReg x v).dirty = s.dirty := rfl
@[simp] theorem setReg_keys (s : State) (x : Nibble) (v : Byte) : (s.setReg x v).keys = s.keys := rfl
@[simp] theorem setReg_wait (s : State) (x : Nibble) (v : Byte) : (s.setReg x v).wait = s.wait := rfl
@[simp] theorem setReg_run (s : State) (x : Nibble) (v : Byte) : (s.setReg x v).run = s.run := rfl
@[simp] theorem setReg_mem (s : State) (x : Nibble) (v : Byte) : (s.setReg x v).mem = s.mem := rfl
@[simp] theorem setReg_instrCount (s : State) (x : Nibble) (v : Byte) : (s.setReg x v).instrCount = s.instrCount := rfl
@[simp] theorem setReg_renderCount (s : State) (x : Nibble) (v : Byte) : (s.setReg x v).renderCount = s.renderCount := rfl
@[simp] theorem setReg_rnd (s : State) (x : Nibble) (v : Byte) : (s.setReg x v).rnd = s.rnd := rfl
@[simp] theorem setReg_tone (s : State) (x : Nibble) (v : Byte) : (s.setReg x v).tone = s.tone := rfl
@[simp] theorem setReg_events (s : State) (x : Nibble) (v : Byte) : (s.setReg x v).events = s.events := rfl
@[simp] theorem setReg_draws (s : State) (x : Nibble) (v : Byte) : (s.setReg x v).draws = s.draws := rfl

@[simp] theorem raise_V (s : State) (t : Trap) : (s.raise t).V = s.V := rfl
@[simp] theorem raise_I (s : State) (t : Trap) : (s.raise t).I = s.I := rfl
@[simp] theorem raise_pc (s : State) (t : Trap) : (s.raise t).pc = s.pc := rfl
@[simp] theorem raise_stk (s : State) (t : Trap) : (s.raise t).stk = s.stk := rfl
@[simp] theorem raise_sp (s : State) (t : Trap) : (s.raise t).sp = s.sp := rfl
@[simp] theorem raise_DT (s : State) (t : Trap) : (s.raise t).DT = s.DT := rfl
@[simp] theorem raise_ST (s : State) (t : Trap) : (s.raise t).ST = s.ST := rfl
@[simp] theorem raise_fb (s : State) (t : Trap) : (s.raise t).fb = s.fb := rfl
@[simp] theorem raise_dirty (s : State) (t : Trap) : (s.raise t).dirty = s.dirty := rfl
@[simp] theorem raise_keys (s : State) (t : Trap) : (s.raise t).keys = s.keys := rfl
@[simp] theorem raise_wait (s : State) (t : Trap) : (s.raise t).wait = s.wait := rfl
@[simp] theorem raise_run (s : State) (t : Trap) : (s.raise t).run = .halted t.cause t.info := rfl
@[simp] theorem raise_mem (s : State) (t : Trap) : (s.raise t).mem = s.mem := rfl
@[simp] theorem raise_instrCount (s : State) (t : Trap) : (s.raise t).instrCount = s.instrCount := rfl
@[simp] theorem raise_renderCount (s : State) (t : Trap) : (s.raise t).renderCount = s.renderCount := rfl
@[simp] theorem raise_rnd (s : State) (t : Trap) : (s.raise t).rnd = s.rnd := rfl
@[simp] theorem raise_tone (s : State) (t : Trap) : (s.raise t).tone = s.tone := rfl
@[simp] theorem raise_events (s : State) (t : Trap) : (s.raise t).events = s.events := rfl
@[simp] theorem raise_draws (s : State) (t : Trap) : (s.raise t).draws = s.draws := rfl

@[simp] theorem advance_V (s : State) : s.advance.V = s.V := rfl
@[simp] theorem advance_I (s : State) : s.advance.I = s.I := rfl
@[simp] theorem advance_pc (s : State) : s.advance.pc = BitVec.ofNat 16 (s.pc.toNat + 2) := rfl
@[simp] theorem advance_stk (s : State) : s.advance.stk = s.stk := rfl
@[simp] theorem advance_sp (s : State) : s.advance.sp = s.sp := rfl
@[simp] theorem advance_DT (s : State) : s.advance.DT = s.DT := rfl
@[simp] theorem advance_ST (s : State) : s.advance.ST = s.ST := rfl
@[simp] theorem advance_fb (s : State) : s.advance.fb = s.fb := rfl
@[simp] theorem advance_dirty (s : State) : s.advance.dirty = s.dirty := rfl
@[simp] theorem advance_keys (s : State) : s.advance.keys = s.keys := rfl
@[simp] theorem advance_wait (s : State) : s.advance.wait = s.wait := rfl
@[simp] theorem advance_run (s : State) : s.advance.run = s.run := rfl
@[simp] theorem advance_mem (s : State) : s.advance.mem = s.mem := rfl
@[simp] theorem advance_instrCount (s : State) : s.advance.instrCount = s.instrCount := rfl
@[simp] theorem advance_renderCount (s : State) : s.advance.renderCount = s.renderCount := rfl
@[simp] theorem advance_rnd (s : State) : s.advance.rnd = s.rnd := rfl
@[simp] theorem advance_tone (s : State) : s.advance.tone = s.tone := rfl
@[simp] theorem advance_events (s : State) : s.advance.events = s.events := rfl
@[simp] theorem advance_draws (s : State) : s.advance.draws = s.draws := rfl

@[simp] theorem skip_V (s : State) : s.skip.V = s.V := rfl
@[simp] theorem skip_I (s : State) : s.skip.I = s.I := rfl
@[simp] theorem skip_pc (s : State) : s.skip.pc = BitVec.ofNat 16 (s.pc.toNat + 2) := rfl
@[simp] theorem skip_stk (s : State) : s.skip.stk = s.stk := rfl
@[simp] theorem skip_sp (s : State) : s.skip.sp = s.sp := rfl
@[simp] theorem skip_DT (s : State) : s.skip.DT = s.DT := rfl
@[simp] theorem skip_ST (s : State) : s.skip.ST = s.ST := rfl
@[simp] theorem skip_fb (s : State) : s.skip.fb = s.fb := rfl
@[simp] theorem skip_dirty (s : State) : s.skip.dirty = s.dirty := rfl
@[simp] theorem skip_keys (s : State) : s.skip.keys = s.keys := rfl
@[simp] theorem skip_wait (s : State) : s.skip.wait = s.wait := rfl
@[simp] theorem skip_run (s : State) : s.skip.run = s.run := rfl
@[simp] theorem skip_mem (s : State) : s.skip.mem = s.mem := rfl
@[simp] theorem skip_instrCount (s : State) : s.skip.instrCount = s.instrCount := rfl
@[simp] theorem skip_renderCount (s : State) : s.skip.renderCount = s.renderCount := rfl
@[simp] theorem skip_rnd (s : State) : s.skip.rnd = s.rnd := rfl
@[simp] theorem skip_tone (s : State) : s.skip.tone = s.tone := rfl
@[simp] theorem skip_events (s : State) : s.skip.events = s.events := rfl
@[simp] theorem skip_draws (s : State) : s.skip.draws = s.draws := rfl

@[simp] theorem beginTick_V (s : State) (i : TickInput) : (s.beginTick i).V = s.V := rfl
@[simp] theorem beginTick_I (s : State) (i : TickInput) : (s.beginTick i).I = s.I := rfl
@[simp] theorem beginTick_pc (s : State) (i : TickInput) : (s.beginTick i).pc = s.pc := rfl
@[simp] theorem beginTick_stk (s : State) (i : TickInput) : (s.beginTick i).stk = s.stk := rfl
@[simp] theorem beginTick_sp (s : State) (i : TickInput) : (s.beginTick i).sp = s.sp := rfl
@[simp] theorem beginTick_DT (s : State) (i : TickInput) : (s.beginTick i).DT = s.DT := rfl
@[simp] theorem beginTick_ST (s : State) (i : TickInput) : (s.beginTick i).ST = s.ST := rfl
@[simp] theorem beginTick_fb (s : State) (i : TickInput) : (s.beginTick i).fb = s.fb := rfl
@[simp] theorem beginTick_dirty (s : State) (i : TickInput) : (s.beginTick i).dirty = s.dirty := rfl
@[simp] theorem beginTick_keys (s : State) (i : TickInput) : (s.beginTick i).keys = i.keysIn := rfl
@[simp] theorem beginTick_wait (s : State) (i : TickInput) : (s.beginTick i).wait = s.wait := rfl
@[simp] theorem beginTick_run (s : State) (i : TickInput) : (s.beginTick i).run = s.run := rfl
@[simp] theorem beginTick_mem (s : State) (i : TickInput) : (s.beginTick i).mem = s.mem := rfl
@[simp] theorem beginTick_instrCount (s : State) (i : TickInput) : (s.beginTick i).instrCount = s.instrCount := rfl
@[simp] theorem beginTick_renderCount (s : State) (i : TickInput) : (s.beginTick i).renderCount = s.renderCount := rfl
@[simp] theorem beginTick_rnd (s : State) (i : TickInput) : (s.beginTick i).rnd = i.rnd := rfl
@[simp] theorem beginTick_tone (s : State) (i : TickInput) : (s.beginTick i).tone = false := rfl
@[simp] theorem beginTick_events (s : State) (i : TickInput) : (s.beginTick i).events = s.events := rfl
@[simp] theorem beginTick_draws (s : State) (i : TickInput) : (s.beginTick i).draws = s.draws := rfl

@[simp] theorem timerStep_V (s : State) (d : Bool) : (s.timerStep d).V = s.V := rfl
@[simp] theorem timerStep_I (s : State) (d : Bool) : (s.timerStep d).I = s.I := rfl
@[simp] theorem timerStep_pc (s : State) (d : Bool) : (s.timerStep d).pc = s.pc := rfl
@[simp] theorem timerStep_stk (s : State) (d : Bool) : (s.timerStep d).stk = s.stk := rfl
@[simp] theorem timerStep_sp (s : State) (d : Bool) : (s.timerStep d).sp = s.sp := rfl
@[simp] theorem timerStep_fb (s : State) (d : Bool) : (s.timerStep d).fb = s.fb := rfl
@[simp] theorem timerStep_dirty (s : State) (d : Bool) : (s.timerStep d).dirty = s.dirty := rfl
@[simp] theorem timerStep_keys (s : State) (d : Bool) : (s.timerStep d).keys = s.keys := rfl
@[simp] theorem timerStep_wait (s : State) (d : Bool) : (s.timerStep d).wait = s.wait := rfl
@[simp] theorem timerStep_run (s : State) (d : Bool) : (s.timerStep d).run = s.run := rfl
@[simp] theorem timerStep_mem (s : State) (d : Bool) : (s.timerStep d).mem = s.mem := rfl
@[simp] theorem timerStep_instrCount (s : State) (d : Bool) : (s.timerStep d).instrCount = s.instrCount := rfl
@[simp] theorem timerStep_renderCount (s : State) (d : Bool) : (s.timerStep d).renderCount = s.renderCount := rfl
@[simp] theorem timerStep_rnd (s : State) (d : Bool) : (s.timerStep d).rnd = s.rnd := rfl
@[simp] theorem timerStep_events (s : State) (d : Bool) : (s.timerStep d).events = s.events := rfl
@[simp] theorem timerStep_draws (s : State) (d : Bool) : (s.timerStep d).draws = s.draws := rfl

@[simp] theorem endTick_V (s : State) (d : Bool) : (s.endTick d).V = s.V := rfl
@[simp] theorem endTick_I (s : State) (d : Bool) : (s.endTick d).I = s.I := rfl
@[simp] theorem endTick_pc (s : State) (d : Bool) : (s.endTick d).pc = s.pc := rfl
@[simp] theorem endTick_stk (s : State) (d : Bool) : (s.endTick d).stk = s.stk := rfl
@[simp] theorem endTick_sp (s : State) (d : Bool) : (s.endTick d).sp = s.sp := rfl
@[simp] theorem endTick_fb (s : State) (d : Bool) : (s.endTick d).fb = s.fb := rfl
@[simp] theorem endTick_dirty (s : State) (d : Bool) : (s.endTick d).dirty = s.dirty := rfl
@[simp] theorem endTick_keys (s : State) (d : Bool) : (s.endTick d).keys = s.keys := rfl
@[simp] theorem endTick_wait (s : State) (d : Bool) : (s.endTick d).wait = s.wait := rfl
@[simp] theorem endTick_run (s : State) (d : Bool) : (s.endTick d).run = s.run := rfl
@[simp] theorem endTick_mem (s : State) (d : Bool) : (s.endTick d).mem = s.mem := rfl
@[simp] theorem endTick_instrCount (s : State) (d : Bool) : (s.endTick d).instrCount = s.instrCount := rfl
@[simp] theorem endTick_renderCount (s : State) (d : Bool) : (s.endTick d).renderCount = s.renderCount := rfl
@[simp] theorem endTick_rnd (s : State) (d : Bool) : (s.endTick d).rnd = s.rnd := rfl
@[simp] theorem endTick_events (s : State) (d : Bool) : (s.endTick d).events = s.events := rfl
@[simp] theorem endTick_draws (s : State) (d : Bool) : (s.endTick d).draws = s.draws := rfl

@[simp] theorem clearScreen_V (s : State) : s.clearScreen.V = s.V := rfl
@[simp] theorem clearScreen_I (s : State) : s.clearScreen.I = s.I := rfl
@[simp] theorem clearScreen_pc (s : State) : s.clearScreen.pc = s.pc := rfl
@[simp] theorem clearScreen_stk (s : State) : s.clearScreen.stk = s.stk := rfl
@[simp] theorem clearScreen_sp (s : State) : s.clearScreen.sp = s.sp := rfl
@[simp] theorem clearScreen_DT (s : State) : s.clearScreen.DT = s.DT := rfl
@[simp] theorem clearScreen_ST (s : State) : s.clearScreen.ST = s.ST := rfl
@[simp] theorem clearScreen_keys (s : State) : s.clearScreen.keys = s.keys := rfl
@[simp] theorem clearScreen_wait (s : State) : s.clearScreen.wait = s.wait := rfl
@[simp] theorem clearScreen_run (s : State) : s.clearScreen.run = s.run := rfl
@[simp] theorem clearScreen_mem (s : State) : s.clearScreen.mem = s.mem := rfl
@[simp] theorem clearScreen_instrCount (s : State) : s.clearScreen.instrCount = s.instrCount := rfl
@[simp] theorem clearScreen_renderCount (s : State) : s.clearScreen.renderCount = s.renderCount := rfl
@[simp] theorem clearScreen_rnd (s : State) : s.clearScreen.rnd = s.rnd := rfl
@[simp] theorem clearScreen_tone (s : State) : s.clearScreen.tone = s.tone := rfl
@[simp] theorem clearScreen_events (s : State) : s.clearScreen.events = s.events := rfl
@[simp] theorem clearScreen_draws (s : State) : s.clearScreen.draws = s.draws := rfl

@[simp] theorem raise_reg (s : State) (t : Trap) (r : Nibble) : (s.raise t).reg r = s.reg r := rfl
@[simp] theorem advance_reg (s : State) (r : Nibble) : s.advance.reg r = s.reg r := rfl
@[simp] theorem skip_reg (s : State) (r : Nibble) : s.skip.reg r = s.reg r := rfl
@[simp] theorem beginTick_reg (s : State) (i : TickInput) (r : Nibble) : (s.beginTick i).reg r = s.reg r := rfl
@[simp] theorem timerStep_reg (s : State) (d : Bool) (r : Nibble) : (s.timerStep d).reg r = s.reg r := rfl
@[simp] theorem endTick_reg (s : State) (d : Bool) (r : Nibble) : (s.endTick d).reg r = s.reg r := rfl
@[simp] theorem clearScreen_reg (s : State) (r : Nibble) : s.clearScreen.reg r = s.reg r := rfl

/-- A conditional skip changes `pc` only. -/
theorem skipIf_eq (s : State) (c : Bool) :
    s.skipIf c = { s with pc := if c then BitVec.ofNat 16 (s.pc.toNat + 2) else s.pc } := by
  cases c <;> rfl

@[simp] theorem skipIf_reg (s : State) (c : Bool) (r : Nibble) : (s.skipIf c).reg r = s.reg r := by
  cases c <;> rfl

theorem skipIf_pc (s : State) (c : Bool) :
    (s.skipIf c).pc = if c then BitVec.ofNat 16 (s.pc.toNat + 2) else s.pc := by
  cases c <;> rfl

/-- Reading a register after writing one (R10: the registers are independent). -/
theorem reg_setReg (s : State) (x r : Nibble) (v : Byte) :
    (s.setReg x v).reg r = if r = x then v else s.reg r := by
  unfold reg setReg
  by_cases h : r = x
  · subst h; simp
  · have h' : x.toNat ≠ r.toNat := fun e => h (BitVec.eq_of_toNat_eq e.symm)
    simp [h, Vector.getElem_set_ne, h']

@[simp] theorem reg_setReg_self (s : State) (x : Nibble) (v : Byte) : (s.setReg x v).reg x = v := by
  simp [reg_setReg]

theorem reg_setReg_ne (s : State) {x r : Nibble} (v : Byte) (h : r ≠ x) :
    (s.setReg x v).reg r = s.reg r := by
  simp [reg_setReg, h]

/-- A flag written before a result: the result stays where both go to VF (R86). -/
theorem reg_writeFlagThenResult (s : State) (x r : Nibble) (flag result : Byte) :
    (s.writeFlagThenResult x flag result).reg r =
      if r = x then result else if r = regF then flag else s.reg r := by
  unfold writeFlagThenResult
  rw [reg_setReg]
  split
  · rfl
  · rw [reg_setReg]

/-- The end of a blit writes VF and DIRTY only. -/
theorem endBlit_eq (s : State) (coll changed : Bool) :
    s.endBlit coll changed =
      { (if coll then s.setReg regF 1 else s) with dirty := s.dirty || changed } := by
  cases coll <;> rfl

end Sys2Proof.Machine.State
end

