-- ==== Sys2Proof/Laws/Ops.lean ====
section
/-!
SUPPORT. One lemma per shared operation that says everything it can do.
-/

namespace Sys2Proof.Machine

/-! ### The access check (R42) -/

theorem checkAddress_none (a : Nat) :
    checkAddress a = none ↔ a < 0x050 ∨ (0x200 ≤ a ∧ a < 0x1000) := by
  unfold checkAddress Config.memSize
  split
  · simp; omega
  · split
    · simp; omega
    · simp; omega

theorem checkAddress_cases (a : Nat) :
    (4096 ≤ a ∧ checkAddress a = some ⟨.outOfBoundsAccess, BitVec.ofNat 16 a⟩) ∨
    ((0x050 ≤ a ∧ a ≤ 0x1FF) ∧ checkAddress a = some ⟨.reservedRegionAccess, BitVec.ofNat 16 a⟩) ∨
    ((a < 0x050 ∨ (0x200 ≤ a ∧ a < 0x1000)) ∧ checkAddress a = none) := by
  by_cases h : 4096 ≤ a
  · exact .inl ⟨h, by simp [checkAddress, h]⟩
  · by_cases h' : 0x050 ≤ a ∧ a ≤ 0x1FF
    · exact .inr (.inl ⟨h', by simp [checkAddress, h, h']⟩)
    · exact .inr (.inr ⟨by omega, (checkAddress_none a).mpr (by omega)⟩)

/-- What a failing check records fits its cause (R170). -/
theorem infoFits_of_check {a : Nat} {t : Trap} (h : checkAddress a = some t) (ha : a < 65536) :
    InfoFits (.halted t.cause t.info) := by
  rcases checkAddress_cases a with ⟨h1, h2⟩ | ⟨h1, h2⟩ | ⟨_, h2⟩ <;> rw [h2] at h
  · cases h
    simp only [InfoFits, BitVec.toNat_ofNat]
    omega
  · cases h
    simp only [InfoFits, BitVec.toNat_ofNat]
    omega
  · cases h

namespace State

/-! ### Checked accesses (R43 to R45, R56) -/

theorem memRead_ok (s : State) {a : Nat} (h : checkAddress a = none) :
    s.memRead a = .ok (s.mem.read a) := by
  simp [memRead, h]

theorem memRead_trap (s : State) {a : Nat} {t : Trap} (h : checkAddress a = some t) :
    s.memRead a = .error t := by
  simp [memRead, h]

theorem memWrite_ok (s : State) {a : Nat} (v : Byte) (h : checkAddress a = none) :
    s.memWrite a v = .ok { s with mem := s.mem.write a v } := by
  simp [memWrite, h]

theorem memWrite_trap (s : State) {a : Nat} (v : Byte) {t : Trap} (h : checkAddress a = some t) :
    s.memWrite a v = .error t := by
  simp [memWrite, h]

theorem memReadWord_ok (s : State) {a : Nat} (h : checkAddress a = none)
    (h' : checkAddress (a + 1) = none) :
    s.memReadWord a = .ok (wordOfBytes (s.mem.read a) (s.mem.read (a + 1))) := by
  simp [memReadWord, memRead_ok, h, h']

theorem memReadWord_trap_high (s : State) {a : Nat} {t : Trap} (h : checkAddress a = some t) :
    s.memReadWord a = .error t := by
  simp [memReadWord, memRead_trap, h]

theorem memReadWord_trap_low (s : State) {a : Nat} {t : Trap} (h : checkAddress a = none)
    (h' : checkAddress (a + 1) = some t) : s.memReadWord a = .error t := by
  simp [memReadWord, memRead_ok s h, memRead_trap s h']

/-- A word read succeeds exactly where both bytes may be accessed (R45). -/
theorem memReadWord_inv {s : State} {a : Nat} {w : Word} (h : s.memReadWord a = .ok w) :
    checkAddress a = none ∧ checkAddress (a + 1) = none ∧
      w = wordOfBytes (s.mem.read a) (s.mem.read (a + 1)) := by
  cases h1 : checkAddress a with
  | some t => rw [memReadWord_trap_high s h1] at h; cases h
  | none =>
    cases h2 : checkAddress (a + 1) with
    | some t => rw [memReadWord_trap_low s h1 h2] at h; cases h
    | none => rw [memReadWord_ok s h1 h2] at h; cases h; exact ⟨rfl, rfl, rfl⟩

/-- The trap of a word read is that of its first failing byte (R45, R173). -/
theorem memReadWord_trap_inv {s : State} {a : Nat} {t : Trap} (h : s.memReadWord a = .error t) :
    checkAddress a = some t ∨ (checkAddress a = none ∧ checkAddress (a + 1) = some t) := by
  cases h1 : checkAddress a with
  | some t' => rw [memReadWord_trap_high s h1] at h; cases h; exact .inl rfl
  | none =>
    cases h2 : checkAddress (a + 1) with
    | some t' => rw [memReadWord_trap_low s h1 h2] at h; cases h; exact .inr ⟨rfl, rfl⟩
    | none => rw [memReadWord_ok s h1 h2] at h; cases h

/-! ### Storing bytes (R133, R134) -/

/-- Where every address may be accessed, all bytes are stored and nothing else changes. -/
theorem storeBytes_ok (s : State) (a : Nat) (vs : List Byte) (h : Accessible a vs.length) :
    s.storeBytes a vs = { s with mem := s.mem.writeAll a vs } := by
  induction vs generalizing s a with
  | nil => rfl
  | cons v rest ih =>
    have h0 : checkAddress a = none := h 0 (by simp)
    have h1 : Accessible (a + 1) rest.length := fun k hk => by
      have := h (k + 1) (by simpa using hk)
      rwa [show a + (k + 1) = a + 1 + k by omega] at this
    simp only [storeBytes, memWrite_ok s v h0, ih _ _ h1, Memory.writeAll]

/-- Where the byte at offset `k` is the first that may not be accessed, the bytes before it are stored
and its trap is raised (R172). -/
theorem storeBytes_trap (s : State) (a : Nat) (vs : List Byte) {k : Nat} {t : Trap}
    (hk : k < vs.length) (h : Accessible a k) (ht : checkAddress (a + k) = some t) :
    s.storeBytes a vs = ({ s with mem := s.mem.writeAll a (vs.take k) } : State).raise t := by
  induction vs generalizing s a k with
  | nil => simp at hk
  | cons v rest ih =>
    cases k with
    | zero =>
      simp only [Nat.add_zero] at ht
      simp only [storeBytes, memWrite_trap s v ht, List.take_zero, Memory.writeAll]
    | succ k =>
      have h0 : checkAddress a = none := h 0 (by simp)
      have h1 : Accessible (a + 1) k := fun j hj => by
        have := h (j + 1) (by omega)
        rwa [show a + (j + 1) = a + 1 + j by omega] at this
      rw [show a + (k + 1) = a + 1 + k by omega] at ht
      simp only [storeBytes, memWrite_ok s v h0, List.take_succ_cons, Memory.writeAll]
      exact ih _ _ (by simpa using hk) h1 ht

/-- Everything a store of bytes can do: memory changes, canonically, and a trap may be raised. -/
theorem storeBytes_cases (s : State) (a : Nat) (vs : List Byte) :
    ∃ m r, s.storeBytes a vs = { s with mem := m, run := r } ∧ m.font = s.mem.font ∧
      (s.mem.wf = true → m.wf = true) ∧
      (r = s.run ∨ ∃ t : Trap, r = .halted t.cause t.info ∧ (a < 65536 → InfoFits r)) := by
  induction vs generalizing s a with
  | nil => exact ⟨s.mem, s.run, rfl, rfl, id, .inl rfl⟩
  | cons v rest ih =>
    cases h : checkAddress a with
    | some t =>
      refine ⟨s.mem, .halted t.cause t.info, ?_, rfl, id, .inr ⟨t, rfl, infoFits_of_check h⟩⟩
      simp only [storeBytes, memWrite_trap s v h, raise]
    | none =>
      obtain ⟨m, r, he, hf, hw, hr⟩ := ih { s with mem := s.mem.write a v } (a + 1)
      have hb := (checkAddress_none a).mp h
      refine ⟨m, r, ?_, by simpa using hf, fun hs => hw (Memory.wf_write hs (by omega) v), ?_⟩
      · simp only [storeBytes, memWrite_ok s v h, he]
      · rcases hr with hr | ⟨t, hr, hi⟩
        · exact .inl hr
        · exact .inr ⟨t, hr, fun _ => hi (by omega)⟩

/-! ### Loading registers (R135) -/

/-- Where every address may be accessed, register `j` of the range gets the byte at `base + j`. -/
theorem loadRegs_ok (base : Nat) (count i : Nat) (s : State) (hi : i + count ≤ 16)
    (h : Accessible (base + i) count) :
    ∃ V, loadRegs base count i s = { s with V := V } ∧
      ∀ r : Nibble, ({ s with V := V } : State).reg r =
        if i ≤ r.toNat ∧ r.toNat < i + count then s.mem.read (base + r.toNat) else s.reg r := by
  induction count generalizing i s with
  | zero => exact ⟨s.V, rfl, fun r => by rw [if_neg (by omega)]⟩
  | succ n ih =>
    have h0 : checkAddress (base + i) = none := h 0 (by omega)
    have h1 : Accessible (base + (i + 1)) n := fun k hk => by
      have := h (k + 1) (by omega)
      rwa [show base + i + (k + 1) = base + (i + 1) + k by omega] at this
    obtain ⟨V, he, hV⟩ := ih (i + 1) (s.setReg (BitVec.ofNat 4 i) (s.mem.read (base + i)))
      (by omega) h1
    refine ⟨V, by simp only [loadRegs, memRead_ok s h0, he]; rfl, fun r => ?_⟩
    have hr := hV r
    rw [reg_setReg] at hr
    simp only [setReg_mem] at hr
    refine Eq.trans ?_ (hr.trans ?_)
    · rfl
    by_cases e : r.toNat = i
    · have hri : r = BitVec.ofNat 4 i := by
        apply BitVec.eq_of_toNat_eq
        rw [BitVec.toNat_ofNat]
        omega
      subst e
      rw [if_neg (by omega), if_pos hri, if_pos (by omega)]
    · have hri : ¬r = BitVec.ofNat 4 i := by
        intro e'
        apply e
        rw [e', BitVec.toNat_ofNat]
        omega
      rw [if_neg hri]
      by_cases hc : i + 1 ≤ r.toNat ∧ r.toNat < i + 1 + n
      · rw [if_pos hc, if_pos (by omega)]
      · rw [if_neg hc, if_neg (by omega)]

/-- Where the byte at offset `k` is the first that may not be accessed, the registers before it are
loaded and its trap is raised (R172). -/
theorem loadRegs_trap (base : Nat) (count i : Nat) (s : State) {k : Nat} {t : Trap}
    (hk : k < count) (h : Accessible (base + i) k) (ht : checkAddress (base + i + k) = some t) :
    loadRegs base count i s = (loadRegs base k i s).raise t := by
  induction count generalizing i s k with
  | zero => omega
  | succ n ih =>
    cases k with
    | zero =>
      simp only [Nat.add_zero] at ht
      simp only [loadRegs, memRead_trap s ht]
    | succ k =>
      have h0 : checkAddress (base + i) = none := h 0 (by omega)
      have h1 : Accessible (base + (i + 1)) k := fun j hj => by
        have := h (j + 1) (by omega)
        rwa [show base + i + (j + 1) = base + (i + 1) + j by omega] at this
      simp only [loadRegs, memRead_ok s h0]
      exact ih (i + 1) _ (by omega) h1
        (by rwa [show base + (i + 1) + k = base + i + (k + 1) by omega])

/-- Everything a load of registers can do: registers change, and a trap may be raised. -/
theorem loadRegs_cases (base : Nat) (count i : Nat) (s : State) :
    ∃ V r, loadRegs base count i s = { s with V := V, run := r } ∧
      (∀ q : Nibble, (q.toNat < i ∨ i + count ≤ q.toNat) → i + count ≤ 16 →
        ({ s with V := V, run := r } : State).reg q = s.reg q) ∧
      (r = s.run ∨ ∃ t : Trap, r = .halted t.cause t.info ∧ (base + i < 65536 → InfoFits r)) := by
  induction count generalizing i s with
  | zero => exact ⟨s.V, s.run, rfl, fun _ _ _ => rfl, .inl rfl⟩
  | succ n ih =>
    cases h : checkAddress (base + i) with
    | some t =>
      refine ⟨s.V, .halted t.cause t.info, ?_, fun _ _ _ => rfl,
        .inr ⟨t, rfl, infoFits_of_check h⟩⟩
      simp only [loadRegs, memRead_trap s h, raise]
    | none =>
      obtain ⟨V, r, he, hV, hr⟩ := ih (i + 1) (s.setReg (BitVec.ofNat 4 i) (s.mem.read (base + i)))
      have hb := (checkAddress_none _).mp h
      refine ⟨V, r, ?_, fun q hq hc => ?_, ?_⟩
      · simp only [loadRegs, memRead_ok s h, he]
        rfl
      · refine Eq.trans ?_ ((hV q (by omega) (by omega)).trans (reg_setReg_ne s _ ?_))
        · rfl
        · intro e
          have : q.toNat = i := by
            rw [e, BitVec.toNat_ofNat]
            omega
          omega
      · rcases hr with hr | ⟨t, hr, hi⟩
        · exact .inl hr
        · exact .inr ⟨t, hr, fun _ => hi (by omega)⟩

/-! ### The call stack (R91, R93) -/

theorem push_ok (s : State) (w : Word) (h : s.sp.val < 16) :
    s.push w = .ok { s with stk := s.stk.set s.sp.val w h, sp := ⟨s.sp.val + 1, by omega⟩ } := by
  simp [push, h]

theorem push_full (s : State) (w : Word) (h : s.sp.val = 16) :
    s.push w = .error ⟨.stackOverflow, 16⟩ := by
  simp [push, h]

theorem pop_ok (s : State) (h : 0 < s.sp.val) :
    s.pop = .ok (s.stk[s.sp.val - 1]'(by have := s.sp.isLt; omega),
      { s with sp := ⟨s.sp.val - 1, by have := s.sp.isLt; omega⟩ }) := by
  simp [pop, show ¬s.sp.val = 0 by omega]

theorem pop_empty (s : State) (h : s.sp.val = 0) : s.pop = .error ⟨.stackUnderflow, 0⟩ := by
  simp [pop, h]

/-! ### Keys (R150) -/

theorem keyPressed_ok (s : State) {v : Byte} (h : v.toNat < 16) :
    s.keyPressed v = .ok (s.keys.getLsbD v.toNat) := by
  simp [keyPressed, show ¬15 < v.toNat by omega]

theorem keyPressed_trap (s : State) {v : Byte} (h : 16 ≤ v.toNat) :
    s.keyPressed v = .error ⟨.invalidKeyIndex, byteToWord v⟩ := by
  simp [keyPressed, show 15 < v.toNat by omega]

/-- The base of a data access is `I`, whatever is written to a register (R136). -/
@[simp] theorem setReg_dataBase (s : State) (x : Nibble) (v : Byte) :
    (s.setReg x v).dataBase = s.dataBase := rfl

/-- The registers `V[0] .. V[x]`, one by one (R134). -/
@[simp] theorem regsUpTo_length (s : State) (x : Nibble) : (s.regsUpTo x).length = x.toNat + 1 := by
  simp [regsUpTo]

theorem regsUpTo_getElem (s : State) (x : Nibble) (k : Nat) (h : k < (s.regsUpTo x).length) :
    (s.regsUpTo x)[k] = s.reg (BitVec.ofNat 4 k) := by
  simp [regsUpTo]

end State

end Sys2Proof.Machine
end

