-- ==== Sys2Proof/Laws/Frame.lean ====
section
/-!
SUPPORT. Frames: what `SameBut` says of each update, and how frames combine.
-/

namespace Sys2Proof.Machine

theorem agrees_rfl (s : State) (p : Part) : Agrees s s p := by
  cases p <;> simp [Agrees]

theorem Agrees.trans {s t u : State} {p : Part} (h : Agrees s t p) (h' : Agrees t u p) :
    Agrees s u p := by
  cases p <;> simp only [Agrees] at h h' ⊢
  all_goals first
    | exact h'.trans h
    | exact fun x => (h' x).trans (h x)
    | exact fun x y => (h' x y).trans (h x y)
    | exact ⟨h'.1.trans h.1, h'.2.trans h.2⟩

theorem sameBut_rfl (ps : List Part) (s : State) : SameBut ps s s := fun p _ => agrees_rfl s p

theorem SameBut.mono {ps qs : List Part} {s t : State} (h : SameBut ps s t) (hq : ∀ p ∈ ps, p ∈ qs) :
    SameBut qs s t := fun p hp => h p (fun hm => hp (hq p hm))

theorem SameBut.trans {ps : List Part} {s t u : State} (h : SameBut ps s t) (h' : SameBut ps t u) :
    SameBut ps s u := fun p hp => (h p hp).trans (h' p hp)

theorem sameBut_V (s : State) (v) : SameBut [.V] s { s with V := v } := by
  intro p hp
  cases p <;> simp_all [Agrees]

theorem sameBut_I (s : State) (v) : SameBut [.I] s { s with I := v } := by
  intro p hp
  cases p <;> simp_all [Agrees, State.reg]

theorem sameBut_pc (s : State) (v) : SameBut [.pc] s { s with pc := v } := by
  intro p hp
  cases p <;> simp_all [Agrees, State.reg]

theorem sameBut_stk (s : State) (v) : SameBut [.STK] s { s with stk := v } := by
  intro p hp
  cases p <;> simp_all [Agrees, State.reg]

theorem sameBut_sp (s : State) (v) : SameBut [.SP] s { s with sp := v } := by
  intro p hp
  cases p <;> simp_all [Agrees, State.reg]

theorem sameBut_DT (s : State) (v) : SameBut [.DT] s { s with DT := v } := by
  intro p hp
  cases p <;> simp_all [Agrees, State.reg]

theorem sameBut_ST (s : State) (v) : SameBut [.ST] s { s with ST := v } := by
  intro p hp
  cases p <;> simp_all [Agrees, State.reg]

theorem sameBut_fb (s : State) (v) : SameBut [.FB] s { s with fb := v } := by
  intro p hp
  cases p <;> simp_all [Agrees, State.reg]

theorem sameBut_dirty (s : State) (v) : SameBut [.DIRTY] s { s with dirty := v } := by
  intro p hp
  cases p <;> simp_all [Agrees, State.reg]

theorem sameBut_keys (s : State) (v) : SameBut [.K] s { s with keys := v } := by
  intro p hp
  cases p <;> simp_all [Agrees, State.reg]

theorem sameBut_wait (s : State) (v) : SameBut [.WAIT] s { s with wait := v } := by
  intro p hp
  cases p <;> simp_all [Agrees, State.reg]

theorem sameBut_run (s : State) (v) : SameBut [.RUN] s { s with run := v } := by
  intro p hp
  cases p <;> simp_all [Agrees, State.reg]

theorem sameBut_rnd (s : State) (v) : SameBut [.rnd] s { s with rnd := v } := by
  intro p hp
  cases p <;> simp_all [Agrees, State.reg]

theorem sameBut_tone (s : State) (v) : SameBut [.tone] s { s with tone := v } := by
  intro p hp
  cases p <;> simp_all [Agrees, State.reg]

theorem sameBut_instrCount (s : State) (v) : SameBut [.instrCount] s { s with instrCount := v } := by
  intro p hp
  cases p <;> simp_all [Agrees, State.reg]

theorem sameBut_renderCount (s : State) (v) : SameBut [.renderCount] s { s with renderCount := v } := by
  intro p hp
  cases p <;> simp_all [Agrees, State.reg]

theorem sameBut_mem (s : State) (m : Memory) (h : m.font = s.mem.font) :
    SameBut [.MEM] s { s with mem := m } := by
  intro p hp
  cases p <;> simp_all [Agrees, State.reg]

theorem sameBut_setReg (s : State) (x : Nibble) (v : Byte) : SameBut [.V] s (s.setReg x v) :=
  sameBut_V s _

theorem sameBut_raise (s : State) (t : Trap) : SameBut [.RUN] s (s.raise t) := sameBut_run s _

theorem sameBut_skipIf (s : State) (c : Bool) : SameBut [.pc] s (s.skipIf c) := by
  rw [State.skipIf_eq]
  exact sameBut_pc s _

theorem sameBut_writeFlagThenResult (s : State) (x : Nibble) (flag result : Byte) :
    SameBut [.V] s (s.writeFlagThenResult x flag result) :=
  (sameBut_setReg s regF flag).trans (sameBut_setReg _ x result)

theorem sameBut_beginTick (s : State) (i : TickInput) :
    SameBut [.tone, .K, .rnd] s (s.beginTick i) := by
  intro p hp
  cases p <;> simp_all [Agrees]

theorem sameBut_timerStep (s : State) (d : Bool) : SameBut [.DT, .ST, .tone] s (s.timerStep d) := by
  intro p hp
  cases p <;> simp_all [Agrees]

theorem sameBut_endTick (s : State) (d : Bool) : SameBut [.DT, .ST, .tone] s (s.endTick d) :=
  sameBut_timerStep s _

theorem sameBut_nextEvent (s : State) : SameBut [.hostQueue] s s.nextEvent.2 := by
  intro p hp
  unfold State.nextEvent
  cases s.events <;> cases p <;> simp_all [Agrees, State.reg]

theorem sameBut_resolveKey (s : State) (r : Nibble) : SameBut [.V, .WAIT] s (s.resolveKey r) := by
  unfold State.resolveKey
  split
  · intro p hp
    cases p <;> simp_all [Agrees]
  · exact sameBut_rfl _ s

/-- Registers: a frame of one register after another. -/
theorem regsSameBut_setReg (s : State) (x : Nibble) (v : Byte) : RegsSameBut [x] s (s.setReg x v) :=
  fun r hr => State.reg_setReg_ne s v (by simpa using hr)

theorem regsSameBut_writeFlagThenResult (s : State) (x : Nibble) (flag result : Byte) :
    RegsSameBut [x, regF] s (s.writeFlagThenResult x flag result) := by
  intro r hr
  simp only [List.mem_cons, List.not_mem_nil, or_false, not_or] at hr
  rw [State.reg_writeFlagThenResult, if_neg hr.1, if_neg hr.2]

/-- Either all `n` addresses from `a` on may be accessed, or there is a first that may not. -/
theorem accessible_or_first (a n : Nat) :
    Accessible a n ∨ ∃ k t, k < n ∧ Accessible a k ∧ checkAddress (a + k) = some t := by
  induction n with
  | zero => exact .inl (fun k hk => absurd hk (Nat.not_lt_zero k))
  | succ n ih =>
    rcases ih with h | ⟨k, t, hk, ha, ht⟩
    · cases hc : checkAddress (a + n) with
      | some t => exact .inr ⟨n, t, Nat.lt_succ_self n, h, hc⟩
      | none =>
        refine .inl (fun k hk => ?_)
        rcases Nat.lt_succ_iff_lt_or_eq.mp hk with hk | rfl
        · exact h k hk
        · exact hc
    · exact .inr ⟨k, t, by omega, ha, ht⟩

end Sys2Proof.Machine
end

