-- ==== Sys2Proof/Laws/Keypad.lean ====
section
/-!
SUPPORT. Key resolution (46_keypad.md R153).
-/

namespace Sys2Proof.Machine

/-- With no key pressed there is no lowest key. -/
theorem lowestKey_zero : lowestKey 0 = none := by decide

/-- The lowest key is pressed, and no key below it is. -/
theorem lowestKey_some {keys : BitVec 16} {k : Nat} (h : lowestKey keys = some k) :
    k < 16 ∧ keys.getLsbD k = true ∧ ∀ j, j < k → keys.getLsbD j = false := by
  unfold lowestKey at h
  rw [List.find?_range_eq_some] at h
  obtain ⟨h1, h2, h3⟩ := h
  exact ⟨by simpa using h2, h1, fun j hj => by simpa using h3 j hj⟩

/-- Some key is pressed exactly where there is a lowest key. -/
theorem lowestKey_isSome {keys : BitVec 16} (h : keys ≠ 0) : ∃ k, lowestKey keys = some k := by
  cases hk : lowestKey keys with
  | some k => exact ⟨k, rfl⟩
  | none =>
    exfalso
    apply h
    unfold lowestKey at hk
    rw [List.find?_eq_none] at hk
    apply BitVec.eq_of_getLsbD_eq
    intro i hi
    simpa using hk i (by simpa using hi)

theorem State.resolveKey_none (s : State) (r : Nibble) (h : s.keys = 0) : s.resolveKey r = s := by
  unfold resolveKey
  rw [h, lowestKey_zero]

theorem State.resolveKey_some (s : State) (r : Nibble) {k : Nat} (h : lowestKey s.keys = some k) :
    s.resolveKey r = { s.setReg r (BitVec.ofNat 8 k) with wait := .idle } := by
  unfold resolveKey
  rw [h]

end Sys2Proof.Machine
end

