-- ==== Sys2Proof/Laws/Engine.lean ====
section
/-!
SUPPORT. What one step can be (40_engine_cycle.md R88): the step lemmas for each kind of event, and
the inversion of a step into its cases.
-/

namespace Sys2Proof.Machine

@[simp] theorem onNext_next (s : State) (f : State → State) : onNext (.next s) f = .next (f s) := rfl

theorem onNext_eq_next {o : Host.Outcome State Fault Refusal} {f : State → State} {t : State}
    (h : onNext o f = .next t) : ∃ u, o = .next u ∧ t = f u := by
  cases o with
  | next u => exact ⟨u, rfl, by simpa [onNext] using h.symm⟩
  | fault r => cases r
  | refused r => simp [onNext] at h

/-- A step whose event is a Tick is that Tick. -/
theorem step_tick {s : State} {input : TickInput} (h : s.nextEvent.1 = .tick input) :
    step s = tick input s.nextEvent.2 := by
  simp [step, deliver, h]

@[simp] theorem nextEvent_run (s : State) : s.nextEvent.2.run = s.run :=
  sameBut_nextEvent s .RUN (by decide)

@[simp] theorem nextEvent_wait (s : State) : s.nextEvent.2.wait = s.wait :=
  sameBut_nextEvent s .WAIT (by decide)

@[simp] theorem nextEvent_pc (s : State) : s.nextEvent.2.pc = s.pc :=
  sameBut_nextEvent s .pc (by decide)

@[simp] theorem nextEvent_mem (s : State) : s.nextEvent.2.mem = s.mem := by
  unfold State.nextEvent
  cases s.events <;> rfl

/-- The word read depends on memory alone. -/
theorem memReadWord_congr {s t : State} (h : t.mem = s.mem) (a : Nat) :
    t.memReadWord a = s.memReadWord a := by
  simp [State.memReadWord, State.memRead, h]

/-- A Tick of a core that is not running changes nothing but its tone output (R82). -/
theorem tick_terminal (input : TickInput) {s : State} (h : s.run ≠ .running) :
    tick input s = .next { s with tone := false } := by
  simp [tick, h]

/-- A Tick of a waiting core resolves the key and ends (R81). -/
theorem tick_waiting (input : TickInput) {s : State} {r : Nibble} (h : s.run = .running)
    (hw : s.wait = .awaitingKey r) :
    tick input s = .next (((s.beginTick input).resolveKey r).endTick input.timerDue) := by
  simp [tick, h, hw]

/-- A Tick of a running, idle core is one instruction cycle and the end of the Tick (R81). -/
theorem tick_idle (input : TickInput) {s : State} (h : s.run = .running) (hw : s.wait = .idle) :
    tick input s =
      onNext (instructionCycle (s.beginTick input)) (fun t => t.endTick input.timerDue) := by
  simp [tick, h, hw]

/-- The state entered for an instruction, field by field of its memory. -/
@[simp] theorem entered_mem (s : State) (input : TickInput) : (s.entered input).mem = s.mem := by
  simp [State.entered]

@[simp] theorem entered_run (s : State) (input : TickInput) : (s.entered input).run = s.run := by
  simp [State.entered]

@[simp] theorem entered_wait (s : State) (input : TickInput) : (s.entered input).wait = s.wait := by
  simp [State.entered]

@[simp] theorem entered_pc (s : State) (input : TickInput) :
    (s.entered input).pc = BitVec.ofNat 16 (s.pc.toNat + 2) := by
  simp [State.entered]

@[simp] theorem entered_keys (s : State) (input : TickInput) :
    (s.entered input).keys = input.keysIn := by
  simp [State.entered]

@[simp] theorem entered_rnd (s : State) (input : TickInput) : (s.entered input).rnd = input.rnd := by
  simp [State.entered]

@[simp] theorem entered_tone (s : State) (input : TickInput) : (s.entered input).tone = false := by
  simp [State.entered]

theorem entered_sameBut (s : State) (input : TickInput) :
    SameBut [.pc, .K, .rnd, .tone, .instrCount, .hostQueue] s (s.entered input) := by
  refine SameBut.trans (t := s.nextEvent.2)
    ((sameBut_nextEvent s).mono (by decide)) ?_
  refine SameBut.trans (t := s.nextEvent.2.beginTick input)
    ((sameBut_beginTick _ input).mono (by decide)) ?_
  intro p hp
  cases p <;> simp_all [Agrees, State.entered, State.reg]

/-- The step of a running, idle core whose next event is a Tick, by what is fetched (R88). -/
theorem step_runsNext {s : State} {input : TickInput} (h : RunsNext s input) :
    step s = onNext
      (match s.memReadWord s.pc.toNat with
        | .error t => .next ((s.nextEvent.2.beginTick input).raise t)
        | .ok w =>
          match decodeWord w with
          | .error _ => .next ((s.entered input).raise ⟨.unrecognizedOpcode, w⟩)
          | .ok i => exec i (s.entered input))
      (fun t => t.endTick input.timerDue) := by
  obtain ⟨hr, hw, he⟩ := h
  rw [step_tick he, tick_idle input (by simpa using hr) (by simpa using hw)]
  congr 1
  have hm : (s.nextEvent.2.beginTick input).memReadWord (s.nextEvent.2.beginTick input).pc.toNat =
      s.memReadWord s.pc.toNat := by
    rw [memReadWord_congr (s := s) (by simp)]
    simp
  unfold instructionCycle
  rw [hm]
  cases s.memReadWord s.pc.toNat with
  | error t => rfl
  | ok w => rfl

/-- Every step that answers a next state is one of these (R88, R143, R190). -/
theorem step_cases {s t : State} (h : step s = .next t) :
    (∃ input, s.nextEvent.1 = .tick input ∧ s.run ≠ .running ∧
      t = { s.nextEvent.2 with tone := false }) ∨
    (∃ input r, s.nextEvent.1 = .tick input ∧ s.run = .running ∧ s.wait = .awaitingKey r ∧
      t = ((s.nextEvent.2.beginTick input).resolveKey r).endTick input.timerDue) ∨
    (∃ input f, RunsNext s input ∧ s.memReadWord s.pc.toNat = .error f ∧
      t = ((s.nextEvent.2.beginTick input).raise f).endTick input.timerDue) ∨
    (∃ input w e, RunsNext s input ∧ s.memReadWord s.pc.toNat = .ok w ∧ decodeWord w = .error e ∧
      t = ((s.entered input).raise ⟨.unrecognizedOpcode, w⟩).endTick input.timerDue) ∨
    (∃ input w i u, RunsNext s input ∧ s.memReadWord s.pc.toNat = .ok w ∧ decodeWord w = .ok i ∧
      exec i (s.entered input) = .next u ∧ t = u.endTick input.timerDue) ∨
    (s.nextEvent.1 = .renderAck ∧ t = s.nextEvent.2.renderAck) ∨
    (∃ rom font, s.nextEvent.1 = .reset rom font ∧ launchWellFormed rom font = true ∧
      t = s.nextEvent.2.launch rom font) := by
  cases he : s.nextEvent.1 with
  | tick input =>
    by_cases hr : s.run = .running
    · cases hw : s.wait with
      | awaitingKey r =>
        rw [step_tick he, tick_waiting input (by simpa using hr) (by simpa using hw)] at h
        cases h
        exact .inr (.inl ⟨input, r, rfl, hr, rfl, rfl⟩)
      | idle =>
        have hn : RunsNext s input := ⟨hr, hw, he⟩
        rw [step_runsNext hn] at h
        cases hf : s.memReadWord s.pc.toNat with
        | error f =>
          rw [hf] at h
          cases h
          exact .inr (.inr (.inl ⟨input, f, hn, rfl, rfl⟩))
        | ok w =>
          rw [hf] at h
          simp only at h
          cases hd : decodeWord w with
          | error e =>
            rw [hd] at h
            cases h
            exact .inr (.inr (.inr (.inl ⟨input, w, e, hn, rfl, hd, rfl⟩)))
          | ok i =>
            rw [hd] at h
            obtain ⟨u, hu, ht⟩ := onNext_eq_next h
            exact .inr (.inr (.inr (.inr (.inl ⟨input, w, i, u, hn, rfl, hd, hu, ht⟩))))
    · rw [step_tick he, tick_terminal input (by simpa using hr)] at h
      cases h
      exact .inl ⟨input, rfl, hr, rfl⟩
  | renderAck =>
    simp only [step, deliver, he] at h
    cases h
    exact .inr (.inr (.inr (.inr (.inr (.inl ⟨rfl, rfl⟩)))))
  | reset rom font =>
    simp only [step, deliver, he, launch] at h
    split at h
    · rename_i hl
      cases h
      exact .inr (.inr (.inr (.inr (.inr (.inr ⟨rom, font, rfl, hl, rfl⟩)))))
    · cases h

/-- A legal launch, and what it leaves in memory and `pc` (R190). -/
theorem launch_ok (s : State) {rom font : List Byte} (h : launchWellFormed rom font = true) :
    launch rom font s = .next (s.launch rom font) := by
  simp [launch, h]

theorem launchWellFormed_iff (rom font : List Byte) :
    launchWellFormed rom font = true ↔ rom.length ≤ 3584 ∧ font.length = 80 := by
  simp [launchWellFormed, romFits, fontFits, Config.romMax, Config.fontSize]

@[simp] theorem launch_mem (s : State) (rom font : List Byte) :
    (s.launch rom font).mem = Memory.ofLaunch rom font := rfl

@[simp] theorem launch_pc (s : State) (rom font : List Byte) : (s.launch rom font).pc = 0x200 := rfl

/-- The timer step leaves everything but DT, ST and tone, whatever is due; at a halt it does not step. -/
theorem endTick_halted {s : State} (h : s.run ≠ .running) (d : Bool) :
    s.endTick d = { s with tone := false } := by
  simp [State.endTick, State.timerStep, h]

end Sys2Proof.Machine
end

