-- ==== Sys2Proof/Laws/PerInstr.lean ====
section
/-!
SUPPORT. Statements made instruction by instruction. Family `MatchesRow`: the word of an instruction
matches its row of the opcode map (30_encoding.md R64), `w AND mask = match`.
-/

namespace Sys2Proof.Laws

/-- The masks of the map keep whole fields. -/
theorem and_F000 (w : Word) : w &&& 0xF000#16 = (opOf w).setWidth 16 <<< 12 := by
  ext i hi
  interval_cases i <;> simp [opOf]

theorem and_F00F (w : Word) :
    w &&& 0xF00F#16 = ((opOf w).setWidth 16 <<< 12) ||| (nOf w).setWidth 16 := by
  ext i hi
  interval_cases i <;> simp [opOf, nOf]

theorem and_F0FF (w : Word) :
    w &&& 0xF0FF#16 = ((opOf w).setWidth 16 <<< 12) ||| (kkOf w).setWidth 16 := by
  ext i hi
  interval_cases i <;> simp [opOf, kkOf]

namespace MatchesRow

/-- The word of the instruction matches its row. -/
def Statement (i : Instr) : Prop := matchesRow (encodeWord i) (rowOf i) = true

theorem nop : Statement (.nop) := by
  simp [Statement, matchesRow, encodeWord, rowOf]

theorem cls : Statement (.cls) := by
  simp [Statement, matchesRow, encodeWord, rowOf]

theorem ret : Statement (.ret) := by
  simp [Statement, matchesRow, encodeWord, rowOf]

theorem jmp (nnn : Addr) : Statement (.jmp nnn) := by
  simp [Statement, matchesRow, encodeWord, rowOf, and_F000]

theorem call (nnn : Addr) : Statement (.call nnn) := by
  simp [Statement, matchesRow, encodeWord, rowOf, and_F000]

theorem sei (x : Nibble) (kk : Byte) : Statement (.sei x kk) := by
  simp [Statement, matchesRow, encodeWord, rowOf, and_F000]

theorem snei (x : Nibble) (kk : Byte) : Statement (.snei x kk) := by
  simp [Statement, matchesRow, encodeWord, rowOf, and_F000]

theorem ser (x y : Nibble) : Statement (.ser x y) := by
  simp [Statement, matchesRow, encodeWord, rowOf, and_F00F]

theorem ldi (x : Nibble) (kk : Byte) : Statement (.ldi x kk) := by
  simp [Statement, matchesRow, encodeWord, rowOf, and_F000]

theorem addi (x : Nibble) (kk : Byte) : Statement (.addi x kk) := by
  simp [Statement, matchesRow, encodeWord, rowOf, and_F000]

theorem mov (x y : Nibble) : Statement (.mov x y) := by
  simp [Statement, matchesRow, encodeWord, rowOf, and_F00F]

theorem or (x y : Nibble) : Statement (.or x y) := by
  simp [Statement, matchesRow, encodeWord, rowOf, and_F00F]

theorem and (x y : Nibble) : Statement (.and x y) := by
  simp [Statement, matchesRow, encodeWord, rowOf, and_F00F]

theorem xor (x y : Nibble) : Statement (.xor x y) := by
  simp [Statement, matchesRow, encodeWord, rowOf, and_F00F]

theorem add (x y : Nibble) : Statement (.add x y) := by
  simp [Statement, matchesRow, encodeWord, rowOf, and_F00F]

theorem sub (x y : Nibble) : Statement (.sub x y) := by
  simp [Statement, matchesRow, encodeWord, rowOf, and_F00F]

theorem shr (x y : Nibble) : Statement (.shr x y) := by
  simp [Statement, matchesRow, encodeWord, rowOf, and_F00F]

theorem subn (x y : Nibble) : Statement (.subn x y) := by
  simp [Statement, matchesRow, encodeWord, rowOf, and_F00F]

theorem shl (x y : Nibble) : Statement (.shl x y) := by
  simp [Statement, matchesRow, encodeWord, rowOf, and_F00F]

theorem sner (x y : Nibble) : Statement (.sner x y) := by
  simp [Statement, matchesRow, encodeWord, rowOf, and_F00F]

theorem ldix (nnn : Addr) : Statement (.ldix nnn) := by
  simp [Statement, matchesRow, encodeWord, rowOf, and_F000]

theorem jmpv0 (nnn : Addr) : Statement (.jmpv0 nnn) := by
  simp [Statement, matchesRow, encodeWord, rowOf, and_F000]

theorem rnd (x : Nibble) (kk : Byte) : Statement (.rnd x kk) := by
  simp [Statement, matchesRow, encodeWord, rowOf, and_F000]

theorem drw (x y n : Nibble) : Statement (.drw x y n) := by
  simp [Statement, matchesRow, encodeWord, rowOf, and_F000]

theorem skp (x : Nibble) : Statement (.skp x) := by
  simp [Statement, matchesRow, encodeWord, rowOf, and_F0FF]

theorem sknp (x : Nibble) : Statement (.sknp x) := by
  simp [Statement, matchesRow, encodeWord, rowOf, and_F0FF]

theorem lddt (x : Nibble) : Statement (.lddt x) := by
  simp [Statement, matchesRow, encodeWord, rowOf, and_F0FF]

theorem waitk (x : Nibble) : Statement (.waitk x) := by
  simp [Statement, matchesRow, encodeWord, rowOf, and_F0FF]

theorem stdt (x : Nibble) : Statement (.stdt x) := by
  simp [Statement, matchesRow, encodeWord, rowOf, and_F0FF]

theorem stst (x : Nibble) : Statement (.stst x) := by
  simp [Statement, matchesRow, encodeWord, rowOf, and_F0FF]

theorem addix (x : Nibble) : Statement (.addix x) := by
  simp [Statement, matchesRow, encodeWord, rowOf, and_F0FF]

theorem font (x : Nibble) : Statement (.font x) := by
  simp [Statement, matchesRow, encodeWord, rowOf, and_F0FF]

theorem bcd (x : Nibble) : Statement (.bcd x) := by
  simp [Statement, matchesRow, encodeWord, rowOf, and_F0FF]

theorem stm (x : Nibble) : Statement (.stm x) := by
  simp [Statement, matchesRow, encodeWord, rowOf, and_F0FF]

theorem ldm (x : Nibble) : Statement (.ldm x) := by
  simp [Statement, matchesRow, encodeWord, rowOf, and_F0FF]

end MatchesRow

end Sys2Proof.Laws
end

