-- ==== Sys2Proof/Laws/Screen.lean ====
section
/-!
SUPPORT. The sprite engine in closed form (45_display.md R141, R142).
-/

namespace Sys2Proof.Machine

namespace Framebuffer

@[simp] theorem cell_blank (row : Fin 32) (col : Fin 64) : blank.cell row col = false := by
  simp [cell, blank]

/-- A toggle flips its own cell and no other. -/
theorem cell_toggle (fb : Framebuffer) (row row' : Fin 32) (col col' : Fin 64) :
    (fb.toggle row col).cell row' col' =
      (fb.cell row' col' ^^ decide (row' = row ∧ col' = col)) := by
  unfold toggle
  by_cases hr : row' = row
  · subst hr
    by_cases hc : col' = col
    · subst hc
      simp [cell]
    · have : col.val ≠ col'.val := fun e => hc (Fin.ext e.symm)
      simp [cell, hc, Vector.getElem_set_ne, this]
  · have : row.val ≠ row'.val := fun e => hr (Fin.ext e.symm)
    simp [cell, hr, Vector.getElem_set_ne, this]

/-- Two framebuffers with the same cells are equal. -/
theorem ext_cell {f g : Framebuffer} (h : ∀ row col, f.cell row col = g.cell row col) : f = g := by
  apply Vector.ext
  intro i hi
  apply Vector.ext
  intro j hj
  exact h ⟨i, hi⟩ ⟨j, hj⟩

/-- `anySet` is the existence of a cell that is 1 (R140). -/
theorem anySet_iff (fb : Framebuffer) : fb.anySet = true ↔ ∃ row col, fb.cell row col = true := by
  simp only [anySet, List.any_eq_true, Vector.mem_toList_iff, id, cell]
  constructor
  · rintro ⟨r, hr, b, hb, rfl⟩
    obtain ⟨i, hi, rfl⟩ := Vector.mem_iff_getElem.mp hr
    obtain ⟨j, hj, he⟩ := Vector.mem_iff_getElem.mp hb
    exact ⟨⟨i, hi⟩, ⟨j, hj⟩, he⟩
  · rintro ⟨row, col, h⟩
    exact ⟨fb[row.val], Vector.getElem_mem _, _, Vector.getElem_mem _, h⟩

end Framebuffer

theorem wrapColumn_inj (vx : Byte) {c d : Nat} (hc : c < 8) (hd : d < 8)
    (h : wrapColumn vx c = wrapColumn vx d) : c = d := by
  simp only [wrapColumn, Fin.mk.injEq] at h
  omega

theorem wrapRow_inj (vy : Byte) {r q : Nat} (hr : r < 16) (hq : q < 16)
    (h : wrapRow vy r = wrapRow vy q) : r = q := by
  simp only [wrapRow, Fin.mk.injEq] at h
  omega

/-- The columns of a row are distinct, so a later column is not hit by an earlier bit (R141). -/
theorem rowHits_false (byte vx : Byte) {n : Nat} (hn : n < 8) :
    rowHits byte vx n (wrapColumn vx n) = false := by
  simp only [rowHits, List.any_eq_false, List.mem_range, Bool.and_eq_true, decide_eq_true_eq, not_and]
  intro c hc _ he
  have := wrapColumn_inj vx hn (by omega) he
  omega

/-- The first `n` columns of a row, in closed form: the cells hit are toggled, a collision is a hit
cell that was 1, a change is a hit. -/
theorem foldl_drawBit (b : Blit) (byte vx : Byte) (row : Fin 32) (n : Nat) (hn : n ≤ 8) :
    let b' := (List.range n).foldl (Blit.drawBit byte vx row) b
    (∀ row' col, b'.fb.cell row' col =
      (b.fb.cell row' col ^^ (decide (row' = row) && rowHits byte vx n col))) ∧
    (b'.coll = true ↔ b.coll = true ∨ ∃ col, rowHits byte vx n col = true ∧ b.fb.cell row col = true) ∧
    (b'.changed = true ↔ b.changed = true ∨ ∃ col, rowHits byte vx n col = true) := by
  induction n with
  | zero => simp [rowHits]
  | succ n ih =>
    obtain ⟨h1, h2, h3⟩ := ih (by omega)
    have hs : ∀ col, rowHits byte vx (n + 1) col =
        (rowHits byte vx n col || (byte.getLsbD (7 - n) && decide (col = wrapColumn vx n))) := by
      intro col
      simp [rowHits, List.range_succ]
    have hf := rowHits_false byte vx (show n < 8 by omega)
    rw [List.range_succ, List.foldl_append]
    simp only [List.foldl_cons, List.foldl_nil]
    generalize hb : (List.range n).foldl (Blit.drawBit byte vx row) b = b' at h1 h2 h3 ⊢
    unfold Blit.drawBit
    cases hbit : byte.getLsbD (7 - n) with
    | false =>
      simp only [hbit, Bool.false_and, Bool.or_false] at hs
      simp only [Bool.false_eq_true, if_false, hs]
      exact ⟨h1, h2, h3⟩
    | true =>
      simp only [hbit, Bool.true_and] at hs
      simp only [if_true, Blit.toggle]
      refine ⟨fun row' col => ?_, ?_, ?_⟩
      · rw [Framebuffer.cell_toggle, h1, hs]
        by_cases hr : row' = row
        · by_cases hc : col = wrapColumn vx n
          · simp [hr, hc, hf]
          · simp [hr, hc]
        · simp [hr]
      · rw [Bool.or_eq_true, h2, h1]
        simp only [hs, decide_true, Bool.true_and, hf, Bool.xor_false, Bool.or_eq_true,
          decide_eq_true_eq]
        constructor
        · rintro ((h | ⟨col, h, h'⟩) | h)
          · exact .inl h
          · exact .inr ⟨col, .inl h, h'⟩
          · exact .inr ⟨_, .inr rfl, h⟩
        · rintro (h | ⟨col, h | rfl, h'⟩)
          · exact .inl (.inl h)
          · exact .inl (.inr ⟨col, h, h'⟩)
          · exact .inr h'
      · simp only [hs, Bool.or_eq_true, decide_eq_true_eq, true_iff]
        exact .inr ⟨wrapColumn vx n, .inr rfl⟩

theorem spriteHits_succ (m : Memory) (base : Nat) (vx vy : Byte) (count r : Nat) (row : Fin 32)
    (col : Fin 64) : spriteHits m base vx vy (count + 1) r row col =
      ((decide (row = wrapRow vy r) && rowHits (m.read (base + r)) vx 8 col) ||
        spriteHits m base vx vy count (r + 1) row col) := by
  simp only [spriteHits, List.range_succ_eq_map, List.any_cons, List.any_map, Nat.add_zero]
  congr 1
  congr 1
  funext k
  simp [show r + (k + 1) = r + 1 + k by omega]

theorem spriteHits_self (m : Memory) (base : Nat) (vx vy : Byte) (count r : Nat) (col : Fin 64)
    (h : r + 1 + count ≤ 16) :
    spriteHits m base vx vy count (r + 1) (wrapRow vy r) col = false := by
  simp only [spriteHits, List.any_eq_false, List.mem_range, Bool.and_eq_true, decide_eq_true_eq, not_and]
  intro k hk he
  have := wrapRow_inj vy (by omega) (by omega) he
  omega

namespace State

/-- A whole blit in closed form, where every row may be read (R141): the cells the sprite hits are
toggled; the collision and change flags handed to `endBlit` say whether a hit cell was 1, and
whether a cell was hit. -/
theorem drawRows_ok (vx vy : Byte) (count r : Nat) (coll changed : Bool) (s : State)
    (hr : r + count ≤ 16) (h : Accessible (s.dataBase + r) count) :
    ∃ fb coll' changed',
      drawRows vx vy count r coll changed s = ({ s with fb := fb } : State).endBlit coll' changed' ∧
      (∀ row col, fb.cell row col =
        (s.fb.cell row col ^^ spriteHits s.mem s.dataBase vx vy count r row col)) ∧
      (coll' = true ↔ coll = true ∨ ∃ row col,
        spriteHits s.mem s.dataBase vx vy count r row col = true ∧ s.fb.cell row col = true) ∧
      (changed' = true ↔ changed = true ∨ ∃ row col,
        spriteHits s.mem s.dataBase vx vy count r row col = true) := by
  induction count generalizing r coll changed s with
  | zero => exact ⟨s.fb, coll, changed, rfl, by simp [spriteHits]⟩
  | succ n ih =>
    have h0 : checkAddress (s.dataBase + r) = none := h 0 (by omega)
    have h1 : Accessible (s.dataBase + (r + 1)) n := fun k hk => by
      have := h (k + 1) (by omega)
      rwa [show s.dataBase + r + (k + 1) = s.dataBase + (r + 1) + k by omega] at this
    obtain ⟨d1, d2, d3⟩ := foldl_drawBit ⟨s.fb, coll, changed⟩ (s.mem.read (s.dataBase + r)) vx
      (wrapRow vy r) 8 (by omega)
    simp only [drawRows, memRead_ok s h0]
    rw [show Blit.drawRow ⟨s.fb, coll, changed⟩ (s.mem.read (s.dataBase + r)) vx (wrapRow vy r) =
      (List.range 8).foldl (Blit.drawBit (s.mem.read (s.dataBase + r)) vx (wrapRow vy r))
        ⟨s.fb, coll, changed⟩ from rfl]
    generalize hb : (List.range 8).foldl (Blit.drawBit (s.mem.read (s.dataBase + r)) vx (wrapRow vy r))
      ⟨s.fb, coll, changed⟩ = b at d1 d2 d3 ⊢
    obtain ⟨fb, coll', changed', he, e1, e2, e3⟩ :=
      ih (r + 1) b.coll b.changed { s with fb := b.fb } (by omega) h1
    have hself := fun col => spriteHits_self s.mem s.dataBase vx vy n r col (by omega)
    refine ⟨fb, coll', changed', he, fun row col => ?_, ?_, ?_⟩
    · rw [e1, spriteHits_succ]
      show (b.fb.cell row col ^^ spriteHits s.mem s.dataBase vx vy n (r + 1) row col) = _
      rw [d1]
      by_cases hrow : row = wrapRow vy r
      · subst hrow
        simp [hself]
      · simp [hrow]
    · rw [e2, d2]
      show _ ∨ (∃ row col, spriteHits s.mem s.dataBase vx vy n (r + 1) row col = true ∧
        b.fb.cell row col = true) ↔ _
      simp only [spriteHits_succ, Bool.or_eq_true, Bool.and_eq_true, decide_eq_true_eq]
      constructor
      · rintro ((hc | ⟨col, hh, hc⟩) | ⟨row, col, hh, hc⟩)
        · exact .inl hc
        · exact .inr ⟨_, col, .inl ⟨rfl, hh⟩, hc⟩
        · refine .inr ⟨row, col, .inr hh, ?_⟩
          rw [d1] at hc
          have : row ≠ wrapRow vy r := fun e => by
            rw [e, hself] at hh
            cases hh
          simpa [this] using hc
      · rintro (hc | ⟨row, col, ⟨rfl, hh⟩ | hh, hc⟩)
        · exact .inl (.inl hc)
        · exact .inl (.inr ⟨col, hh, hc⟩)
        · refine .inr ⟨row, col, hh, ?_⟩
          have : row ≠ wrapRow vy r := fun e => by
            rw [e, hself] at hh
            cases hh
          rw [d1]
          simpa [this] using hc
    · rw [e3, d3]
      show _ ∨ (∃ row col, spriteHits s.mem s.dataBase vx vy n (r + 1) row col = true) ↔ _
      simp only [spriteHits_succ, Bool.or_eq_true, Bool.and_eq_true, decide_eq_true_eq]
      constructor
      · rintro ((hc | ⟨col, hh⟩) | ⟨row, col, hh⟩)
        · exact .inl hc
        · exact .inr ⟨_, col, .inl ⟨rfl, hh⟩⟩
        · exact .inr ⟨row, col, .inr hh⟩
      · rintro (hc | ⟨row, col, ⟨_, hh⟩ | hh⟩)
        · exact .inl (.inl hc)
        · exact .inl (.inr ⟨col, hh⟩)
        · exact .inr ⟨row, col, hh⟩

/-- Where row `r + k` is the first that may not be read, the rows before it are drawn and its trap is
raised; VF and DIRTY are not written again (R141, R172). -/
theorem drawRows_trap (vx vy : Byte) (count r : Nat) (coll changed : Bool) (s : State) {k : Nat}
    {t : Trap} (hk : k < count) (hr : r + k ≤ 16) (h : Accessible (s.dataBase + r) k)
    (ht : checkAddress (s.dataBase + r + k) = some t) :
    ∃ fb, drawRows vx vy count r coll changed s = ({ s with fb := fb } : State).raise t ∧
      ∀ row col, fb.cell row col =
        (s.fb.cell row col ^^ spriteHits s.mem s.dataBase vx vy k r row col) := by
  induction count generalizing r coll changed s k with
  | zero => omega
  | succ n ih =>
    cases k with
    | zero =>
      refine ⟨s.fb, ?_, by simp [spriteHits]⟩
      simp only [Nat.add_zero] at ht
      simp only [drawRows, memRead_trap s ht]
    | succ k =>
      have h0 : checkAddress (s.dataBase + r) = none := h 0 (by omega)
      have h1 : Accessible (s.dataBase + (r + 1)) k := fun j hj => by
        have := h (j + 1) (by omega)
        rwa [show s.dataBase + r + (j + 1) = s.dataBase + (r + 1) + j by omega] at this
      obtain ⟨d1, -, -⟩ := foldl_drawBit ⟨s.fb, coll, changed⟩ (s.mem.read (s.dataBase + r)) vx
        (wrapRow vy r) 8 (by omega)
      simp only [drawRows, memRead_ok s h0]
      rw [show Blit.drawRow ⟨s.fb, coll, changed⟩ (s.mem.read (s.dataBase + r)) vx (wrapRow vy r) =
        (List.range 8).foldl (Blit.drawBit (s.mem.read (s.dataBase + r)) vx (wrapRow vy r))
          ⟨s.fb, coll, changed⟩ from rfl]
      generalize hb : (List.range 8).foldl (Blit.drawBit (s.mem.read (s.dataBase + r)) vx
        (wrapRow vy r)) ⟨s.fb, coll, changed⟩ = b at d1 ⊢
      obtain ⟨fb, he, e1⟩ := ih (r + 1) b.coll b.changed { s with fb := b.fb } (by omega) (by omega) h1
        (by
          show checkAddress (s.dataBase + (r + 1) + k) = some t
          rwa [show s.dataBase + (r + 1) + k = s.dataBase + r + (k + 1) by omega])
      refine ⟨fb, he, fun row col => ?_⟩
      rw [e1, spriteHits_succ]
      show (b.fb.cell row col ^^ spriteHits s.mem s.dataBase vx vy k (r + 1) row col) = _
      rw [d1]
      have hself := fun col => spriteHits_self s.mem s.dataBase vx vy k r col (by omega)
      by_cases hrow : row = wrapRow vy r
      · subst hrow
        simp [hself]
      · simp [hrow]

/-- Everything a blit can do: the framebuffer, DIRTY (only set), VF and RUN change, and nothing
else. -/
theorem drawRows_cases (vx vy : Byte) (count r : Nat) (coll changed : Bool) (s : State) :
    ∃ V fb d q, drawRows vx vy count r coll changed s = { s with V := V, fb := fb, dirty := d, run := q } ∧
      (∀ x, x ≠ regF → ({ s with V := V, fb := fb, dirty := d, run := q } : State).reg x = s.reg x) ∧
      (s.dirty = true → d = true) ∧
      (q = s.run ∨ ∃ t : Trap, q = .halted t.cause t.info ∧ (s.dataBase + r < 65536 → InfoFits q)) := by
  induction count generalizing r coll changed s with
  | zero =>
    cases coll
    · exact ⟨s.V, s.fb, s.dirty || changed, s.run, rfl, fun _ _ => rfl, fun h => by simp [h], .inl rfl⟩
    · exact ⟨(s.setReg regF 1).V, s.fb, s.dirty || changed, s.run, rfl,
        fun x hx => reg_setReg_ne s 1 hx, fun h => by simp [h], .inl rfl⟩
  | succ n ih =>
    cases h : checkAddress (s.dataBase + r) with
    | some t =>
      refine ⟨s.V, s.fb, s.dirty, .halted t.cause t.info, ?_, fun _ _ => rfl, id,
        .inr ⟨t, rfl, infoFits_of_check h⟩⟩
      simp only [drawRows, memRead_trap s h, raise]
    | none =>
      have hb := (checkAddress_none _).mp h
      simp only [drawRows, memRead_ok s h]
      generalize Blit.drawRow ⟨s.fb, coll, changed⟩ (s.mem.read (s.dataBase + r)) vx (wrapRow vy r) = b
      obtain ⟨V, fb, d, q, he, hV, hd, hq⟩ := ih (r + 1) b.coll b.changed { s with fb := b.fb }
      refine ⟨V, fb, d, q, he, hV, hd, ?_⟩
      rcases hq with hq | ⟨t, hq, hi⟩
      · exact .inl hq
      · refine .inr ⟨t, hq, fun _ => hi ?_⟩
        show s.dataBase + (r + 1) < 65536
        omega

end State

end Sys2Proof.Machine
end

