-- ==== Sys2Proof/Tests/Slice0.lean ====
section
/-!
SUPPORT. The model's own tests: the launch checks, the decoding of one word of every row, at most two
one-step tests per instruction, and a witness for the hypotheses of every obligation that has some.
Expected results come from 95_test_vectors.md (the vector's id stands in each docstring) or are
worked out by hand from the rule named.
-/

namespace Sys2Proof.Tests

open Sys2Proof Sys2Proof.Machine

/-! ### Launch checks (R55, R190) -/

theorem test_longest_rom_accepted :
    launchWellFormed (List.replicate 3584 0) (List.replicate 80 0) = true :=
  (launchWellFormed_iff _ _).2 ⟨by rw [List.length_replicate], by rw [List.length_replicate]⟩

theorem test_longer_rom_refused :
    launchWellFormed (List.replicate 3585 0) (List.replicate 80 0) ≠ true := by
  rw [Ne, launchWellFormed_iff, List.length_replicate]
  omega

theorem test_short_font_refused : launchWellFormed [] (List.replicate 79 0) = false := by decide

theorem test_long_font_refused : launchWellFormed [] (List.replicate 81 0) = false := by decide

/-! ### Decoding: a word of every row, written out from the map of R64, high byte first -/

theorem test_decode_nop : decode [0x00, 0x00] = .ok (.nop, []) := by decide
theorem test_decode_cls : decode [0x00, 0xE0] = .ok (.cls, []) := by decide
theorem test_decode_ret : decode [0x00, 0xEE] = .ok (.ret, []) := by decide
theorem test_decode_jmp : decode [0x1A, 0xBC] = .ok (.jmp 0xABC, []) := by decide
theorem test_decode_call : decode [0x2A, 0xBC] = .ok (.call 0xABC, []) := by decide
theorem test_decode_sei : decode [0x3A, 0x42] = .ok (.sei 0xA 0x42, []) := by decide
theorem test_decode_snei : decode [0x4A, 0x42] = .ok (.snei 0xA 0x42, []) := by decide
theorem test_decode_ser : decode [0x51, 0x20] = .ok (.ser 1 2, []) := by decide
theorem test_decode_ldi : decode [0x60, 0x12] = .ok (.ldi 0 0x12, []) := by decide
theorem test_decode_addi : decode [0x73, 0xFF] = .ok (.addi 3 0xFF, []) := by decide
theorem test_decode_mov : decode [0x81, 0x20] = .ok (.mov 1 2, []) := by decide
theorem test_decode_or : decode [0x81, 0x21] = .ok (.or 1 2, []) := by decide
theorem test_decode_and : decode [0x81, 0x22] = .ok (.and 1 2, []) := by decide
theorem test_decode_xor : decode [0x81, 0x23] = .ok (.xor 1 2, []) := by decide
theorem test_decode_add : decode [0x80, 0x14] = .ok (.add 0 1, []) := by decide
theorem test_decode_sub : decode [0x80, 0x15] = .ok (.sub 0 1, []) := by decide
theorem test_decode_shr : decode [0x80, 0x16] = .ok (.shr 0 1, []) := by decide
theorem test_decode_subn : decode [0x80, 0x17] = .ok (.subn 0 1, []) := by decide
theorem test_decode_shl : decode [0x80, 0x1E] = .ok (.shl 0 1, []) := by decide
theorem test_decode_sner : decode [0x91, 0x20] = .ok (.sner 1 2, []) := by decide
theorem test_decode_ldix : decode [0xAF, 0xFE] = .ok (.ldix 0xFFE, []) := by decide
theorem test_decode_jmpv0 : decode [0xB3, 0x04] = .ok (.jmpv0 0x304, []) := by decide
theorem test_decode_rnd : decode [0xC3, 0x0F] = .ok (.rnd 3 0x0F, []) := by decide
theorem test_decode_drw : decode [0xD0, 0x12] = .ok (.drw 0 1 2, []) := by decide
theorem test_decode_skp : decode [0xE5, 0x9E] = .ok (.skp 5, []) := by decide
theorem test_decode_sknp : decode [0xE5, 0xA1] = .ok (.sknp 5, []) := by decide
theorem test_decode_lddt : decode [0xF4, 0x07] = .ok (.lddt 4, []) := by decide
theorem test_decode_waitk : decode [0xF3, 0x0A] = .ok (.waitk 3, []) := by decide
theorem test_decode_stdt : decode [0xF3, 0x15] = .ok (.stdt 3, []) := by decide
theorem test_decode_stst : decode [0xF3, 0x18] = .ok (.stst 3, []) := by decide
theorem test_decode_addix : decode [0xF0, 0x1E] = .ok (.addix 0, []) := by decide
theorem test_decode_font : decode [0xF0, 0x29] = .ok (.font 0, []) := by decide
theorem test_decode_bcd : decode [0xF0, 0x33] = .ok (.bcd 0, []) := by decide
theorem test_decode_stm : decode [0xF2, 0x55] = .ok (.stm 2, []) := by decide
theorem test_decode_ldm : decode [0xF2, 0x65] = .ok (.ldm 2, []) := by decide

/-- FLT-8: each of these words is unrecognized. -/
theorem test_decode_refused :
    decodeWord 0x0123 = .error (.unrecognized 0x0123) ∧
    decodeWord 0x5121 = .error (.unrecognized 0x5121) ∧
    decodeWord 0x800F = .error (.unrecognized 0x800F) ∧
    decodeWord 0x9001 = .error (.unrecognized 0x9001) ∧
    decodeWord 0xE09F = .error (.unrecognized 0xE09F) ∧
    decodeWord 0xF0FF = .error (.unrecognized 0xF0FF) := by decide

theorem test_decode_table_word : decodeTableWord 16 0xD012 = some (.drw 0 1 2) := by decide

/-! ### A small machine -/

/-- The reset state with a font of zeros, a word at 0x200 and one Tick with no key, no timer step and
random byte 0 to come: the start of the vectors of 95_test_vectors.md. -/
def start (w : Word) : State :=
  { State.reset with
    mem := Memory.writeAll { font := Vector.replicate 80 0, cells := [] } 0x200 [highByte w, lowByte w]
    events := [.tick ⟨0, false, 0⟩] }

/-- One field of the state after a step, if the step answers a next state. -/
def after {α : Type} (s : State) (f : State → α) : Option α :=
  match step s with
  | .next t => some (f t)
  | .fault _ => none
  | .refused _ => none

/-! ### One step per instruction -/

/-- FLOW-1. -/
theorem test_nop : after (start 0x0000) (fun t => (t.pc, t.run)) = some (0x202, .running) := by decide

/-- FLOW-2. -/
theorem test_ret :
    after { start 0x00EE with sp := 2, stk := (Vector.replicate 16 0x0345#16).set 0 0x0222 }
      (fun t => (t.pc, t.sp)) = some (0x0345, 1) := by decide

/-- FLOW-3. -/
theorem test_ret_empty :
    after (start 0x00EE) (fun t => (t.run, t.pc)) = some (.halted .stackUnderflow 0, 0x202) := by decide

/-- FLOW-5. -/
theorem test_jmp_self : after (start 0x1200) (fun t => (t.run, t.pc)) = some (.finished, 0x200) := by
  decide

/-- FLOW-7, first tick: the target cannot be read. -/
theorem test_jmp_reserved :
    after (start 0x1100) (fun t => (t.run, t.pc)) = some (.running, 0x100) := by decide

/-- FLOW-10. -/
theorem test_call_last :
    after { start 0x2ABC with sp := 15 } (fun t => (t.stk[15], t.sp, t.pc)) =
      some (0x0202, 16, 0x0ABC) := by decide

/-- FLOW-11. -/
theorem test_call_full :
    after { start 0x2ABC with sp := 16 } (fun t => (t.run, t.sp, t.pc)) =
      some (.halted .stackOverflow 0x10, 16, 0x202) := by decide

/-- FLOW-13, first tick. -/
theorem test_jmpv0 :
    after ((start 0xBFFF).setReg 0 0xFF) (fun t => (t.pc, t.run)) = some (0x10FE, .running) := by decide

/-- SKIP-1. -/
theorem test_sei : after ((start 0x3A42).setReg 0xA 0x42) (fun t => t.pc) = some 0x204 := by decide

/-- SKIP-3. -/
theorem test_snei : after ((start 0x4A42).setReg 0xA 0x42) (fun t => t.pc) = some 0x202 := by decide

/-- SKIP-6. -/
theorem test_ser :
    after (((start 0x5120).setReg 1 7).setReg 2 8) (fun t => t.pc) = some 0x202 := by decide

/-- SKIP-8. -/
theorem test_sner :
    after (((start 0x9120).setReg 1 7).setReg 2 8) (fun t => t.pc) = some 0x204 := by decide

/-- ALU-1. -/
theorem test_ldi : after (start 0x6012) (fun t => (t.reg 0, t.pc)) = some (0x12, 0x202) := by decide

/-- ALU-3. -/
theorem test_addi :
    after ((start 0x7001).setReg 0 0xFF) (fun t => (t.reg 0, t.reg 0xF)) = some (0, 0) := by decide

/-- ALU-6. -/
theorem test_mov :
    after (((start 0x8120).setReg 1 1).setReg 2 0xAB) (fun t => (t.reg 1, t.reg 2)) =
      some (0xAB, 0xAB) := by decide

/-- ALU-7. -/
theorem test_or :
    after ((((start 0x8121).setReg 1 0xF0).setReg 2 0x0F).setReg 0xF 7) (fun t => (t.reg 1, t.reg 0xF)) =
      some (0xFF, 7) := by decide

/-- ALU-8. -/
theorem test_and :
    after ((((start 0x8122).setReg 1 0xF0).setReg 2 0x3C).setReg 0xF 7) (fun t => (t.reg 1, t.reg 0xF)) =
      some (0x30, 7) := by decide

/-- ALU-9. -/
theorem test_xor :
    after ((((start 0x8123).setReg 1 0xF0).setReg 2 0x3C).setReg 0xF 7) (fun t => (t.reg 1, t.reg 0xF)) =
      some (0xCC, 7) := by decide

/-- ALU-12b: x = F. -/
theorem test_add_into_vf :
    after (((start 0x8F14).setReg 0xF 0xC8).setReg 1 0x64) (fun t => t.reg 0xF) = some 0x2C := by decide

/-- ALU-12c: y = F. -/
theorem test_add_from_vf :
    after (((start 0x81F4).setReg 1 1).setReg 0xF 0xFF) (fun t => (t.reg 1, t.reg 0xF)) =
      some (0, 1) := by decide

/-- ALU-13: equal operands. -/
theorem test_sub_equal :
    after ((((start 0x8015).setReg 0 7).setReg 1 7).setReg 0xF 1) (fun t => (t.reg 0, t.reg 0xF)) =
      some (0, 0) := by decide

/-- ALU-15. -/
theorem test_sub_wraps :
    after (((start 0x8015).setReg 0 3).setReg 1 5) (fun t => (t.reg 0, t.reg 0xF)) =
      some (0xFE, 0) := by decide

/-- ALU-17. -/
theorem test_subn :
    after (((start 0x8017).setReg 0 3).setReg 1 5) (fun t => (t.reg 0, t.reg 0xF)) =
      some (2, 1) := by decide

/-- ALU-20: y is ignored. -/
theorem test_shr :
    after (((start 0x8016).setReg 0 5).setReg 1 0xAA) (fun t => (t.reg 0, t.reg 1, t.reg 0xF)) =
      some (2, 0xAA, 1) := by decide

/-- ALU-26: y is ignored. -/
theorem test_shl :
    after (((start 0x801E).setReg 0 0x81).setReg 1 0xAA) (fun t => (t.reg 0, t.reg 1, t.reg 0xF)) =
      some (2, 0xAA, 1) := by decide

/-- ALU-31. -/
theorem test_rnd :
    after { start 0xC30F with events := [.tick ⟨0, false, 0xB7⟩] } (fun t => t.reg 3) = some 7 := by
  decide

/-- IDX-2. -/
theorem test_ldix : after (start 0xAFFF) (fun t => t.I) = some 0x0FFF := by decide

/-- IDX-4. -/
theorem test_addix :
    after (({ start 0xF01E with I := 0xFFFF }.setReg 0 0xFF).setReg 0xF 3) (fun t => (t.I, t.reg 0xF)) =
      some (0x00FE, 3) := by decide

/-- IDX-7. -/
theorem test_font : after ((start 0xF029).setReg 0 0xFF) (fun t => t.I) = some 0x04FB := by decide

/-- S5. -/
theorem test_bcd :
    after ({ start 0xF033 with I := 0x300 }.setReg 0 0xEA)
      (fun t => (t.mem.read 0x300, t.mem.read 0x301, t.mem.read 0x302, t.I)) =
      some (2, 3, 4, 0x300) := by decide

/-- IDX-12: the font region is written, then the reserved region faults. -/
theorem test_bcd_faults :
    after ({ start 0xF033 with I := 0x04E }.setReg 0 0xEA)
      (fun t => (t.mem.read 0x4E, t.mem.read 0x4F, t.run)) =
      some (2, 3, .halted .reservedRegionAccess 0x50) := by decide

/-- IDX-15. -/
theorem test_stm :
    after (((({ start 0xF255 with I := 0x400 }.setReg 0 0x11).setReg 1 0x22).setReg 2 0x33).setReg 3 0x44)
      (fun t => (t.mem.read 0x400, t.mem.read 0x402, t.mem.read 0x403)) =
      some (0x11, 0x33, 0) := by decide

/-- IDX-18. -/
theorem test_stm_faults :
    after ((({ start 0xF255 with I := 0xFFE }.setReg 0 0x11).setReg 1 0x22).setReg 2 0x33)
      (fun t => (t.mem.read 0xFFE, t.mem.read 0xFFF, t.run)) =
      some (0x11, 0x22, .halted .outOfBoundsAccess 0x1000) := by decide

/-- IDX-21: the instruction's own bytes. -/
theorem test_ldm :
    after { start 0xF165 with I := 0x200 } (fun t => (t.reg 0, t.reg 1, t.reg 2)) =
      some (0xF1, 0x65, 0) := by decide

/-- IDX-20, with the loaded bytes left 0: the registers before the fault are loaded, V2 is not. -/
theorem test_ldm_faults :
    after ((({ start 0xF265 with I := 0xFFE }.setReg 0 9).setReg 1 9).setReg 2 0x77)
      (fun t => (t.reg 0, t.reg 1, t.reg 2, t.run)) =
      some (0, 0, 0x77, .halted .outOfBoundsAccess 0x1000) := by decide

/-- DRW-10. -/
theorem test_cls :
    after { start 0x00E0 with fb := Framebuffer.blank.toggle 3 5 } (fun t => (t.fb.cell 3 5, t.dirty)) =
      some (false, true) := by decide

/-- DRW-1: the sprite F0 90 wraps from column 63 to column 0 and from row 31 to row 0. -/
theorem test_drw_wraps :
    after (({ start 0xD012 with
        I := 0x210
        mem := (start 0xD012).mem.writeAll 0x210 [0xF0, 0x90] }.setReg 0 62).setReg 1 31)
      (fun t => (t.fb.cell 31 1, t.fb.cell 31 2, t.fb.cell 0 1, t.fb.cell 0 63, t.reg 0xF, t.dirty)) =
      some (true, false, true, false, 0, true) := by decide

/-- DRW-4, with the instruction's own high byte 0xD0 as the sprite row. -/
theorem test_drw_collides :
    after ({ start 0xD011 with I := 0x200, fb := Framebuffer.blank.toggle 3 5 }.setReg 0 5 |>.setReg 1 3)
      (fun t => (t.fb.cell 3 5, t.fb.cell 3 6, t.reg 0xF)) = some (false, true, 1) := by decide

/-- KEY-5. -/
theorem test_skp :
    after ({ start 0xE59E with events := [.tick ⟨0x8000, false, 0⟩] }.setReg 5 15) (fun t => t.pc) =
      some 0x204 := by decide

/-- KEY-6. -/
theorem test_skp_faults :
    after ({ start 0xE59E with events := [.tick ⟨0xFFFF, false, 0⟩] }.setReg 5 16)
      (fun t => (t.run, t.pc)) = some (.halted .invalidKeyIndex 0x10, 0x202) := by decide

/-- KEY-4, at 0x200. -/
theorem test_sknp :
    after ({ start 0xE5A1 with events := [.tick ⟨0x0080, false, 0⟩] }.setReg 5 7) (fun t => t.pc) =
      some 0x202 := by decide

/-- KEY-8. -/
theorem test_waitk :
    after { start 0xF30A with events := [.tick ⟨0x0004, false, 0⟩] }
      (fun t => (t.wait, t.reg 3, t.pc)) = some (.awaitingKey 3, 0, 0x202) := by decide

/-- KEY-10. -/
theorem test_wait_resolves :
    after { start 0xF30A with wait := .awaitingKey 3, events := [.tick ⟨0x0084, false, 0⟩] }
      (fun t => (t.wait, t.reg 3, t.pc)) = some (.idle, 2, 0x200) := by decide

/-- TMR-2. -/
theorem test_lddt :
    after { start 0xF407 with DT := 0x2A, events := [.tick ⟨0, true, 0⟩] } (fun t => (t.reg 4, t.DT)) =
      some (0x2A, 0x29) := by decide

/-- TMR-4. -/
theorem test_stdt :
    after ({ start 0xF315 with events := [.tick ⟨0, true, 0⟩] }.setReg 3 2) (fun t => t.DT) =
      some 1 := by decide

/-- TMR-6. -/
theorem test_stst :
    after ({ start 0xF318 with events := [.tick ⟨0, true, 0⟩] }.setReg 3 2) (fun t => (t.ST, t.tone)) =
      some (1, true) := by decide

/-! ### Fetch faults, the two other events, the terminal state -/

/-- FLT-1. -/
theorem test_fetch_reserved :
    after { start 0 with pc := 0x04F } (fun t => (t.run, t.pc)) =
      some (.halted .reservedRegionAccess 0x50, 0x04F) := by decide

/-- FLT-3. -/
theorem test_fetch_top :
    after { start 0 with pc := 0xFFF } (fun t => (t.run, t.pc)) =
      some (.halted .outOfBoundsAccess 0x1000, 0xFFF) := by decide

/-- TMR-11. -/
theorem test_unrecognized :
    after { start 0x0001 with DT := 5, events := [.tick ⟨0, true, 0⟩] } (fun t => (t.run, t.DT, t.pc)) =
      some (.halted .unrecognizedOpcode 1, 5, 0x202) := by decide

/-- TMR-12. -/
theorem test_terminal_tick :
    after { start 0 with run := .finished, DT := 5, events := [.tick ⟨5, true, 0⟩] }
      (fun t => (t.keys, t.DT, t.tone)) = some (0, 5, false) := by decide

/-- DRW-12 and DRW-13. -/
theorem test_render_ack :
    after { start 0 with dirty := true, events := [.renderAck] } (fun t => t.dirty) = some false ∧
    after { start 0 with dirty := true, wait := .awaitingKey 3, events := [.renderAck] }
      (fun t => t.dirty) = some true := by decide

/-- R190: a Reset from a halted core loads the ROM and restores the rest. -/
theorem test_reset_event :
    after { start 0 with run := .finished, pc := 0, events := [.reset [0x60, 0x12] (List.replicate 80 7)] }
      (fun t => (t.run, t.pc, t.mem.read 0x201, t.mem.read 79)) = some (.running, 0x200, 0x12, 7) := by
  decide

/-- A word placed by the host is what the next step after reset runs (log 9). -/
theorem test_with_fetch_word :
    after (State.reset.withFetchWord 16 0x6012) (fun t => (t.reg 0, t.pc)) = some (0x12, 0x202) := by
  decide

/-! ### Witnesses: concrete states and operands that meet the hypotheses of each obligation -/

/-- The framebuffer, the memory and the registers of a sprite drawn from the instruction itself. -/
def drawing : State := { start 0xD012 with I := 0x200 }

theorem witness_EncodeOfDecodeIsIdentity : decodeWord 0xD012 = .ok (.drw 0 1 2) := by decide

theorem witness_CheckedWriteChangesOneCell :
    (start 0).mem.wf = true ∧
    checkAddress 0x050 = some ⟨.reservedRegionAccess, 0x050⟩ ∧
    checkAddress 0x1FF = some ⟨.reservedRegionAccess, 0x1FF⟩ ∧
    checkAddress 0x1000 = some ⟨.outOfBoundsAccess, 0x1000⟩ ∧
    checkAddress 0x04F = none ∧ checkAddress 0x200 = none ∧ checkAddress 0xFFF = none := by decide

theorem witness_CheckedWriteChangesOneCell_frame :
    (∀ x, Instr.nop ≠ .bcd x) ∧ (∀ x, Instr.nop ≠ .stm x) ∧ exec .nop (start 0) = .next (start 0) :=
  ⟨fun _ => nofun, fun _ => nofun, rfl⟩

theorem witness_AccessCheckByRegion :
    (0x04F ≤ 0x04F ∨ (0x200 ≤ 0x04F ∧ 0x04F ≤ 0xFFF)) ∧
    (0x200 ≤ 0x04F ∨ (0x200 ≤ 0x200 ∧ 0x200 ≤ 0xFFF)) ∧
    (0xFFF ≤ 0x04F ∨ (0x200 ≤ 0xFFF ∧ 0xFFF ≤ 0xFFF)) ∧
    (0x050 ≤ 0x050 ∧ 0x050 ≤ 0x1FF) ∧ (0x050 ≤ 0x1FF ∧ 0x1FF ≤ 0x1FF) ∧ 0x1000 ≤ 0x1000 := by decide

theorem witness_WordReadIsBigEndian :
    (checkAddress 0xFFE = none ∧ checkAddress (0xFFE + 1) = none) ∧
    checkAddress 0x1FF = some ⟨.reservedRegionAccess, 0x1FF⟩ ∧
    (checkAddress 0x04F = none ∧
      checkAddress (0x04F + 1) = some ⟨.reservedRegionAccess, 0x050⟩) ∧
    (checkAddress 0xFFF = none ∧
      checkAddress (0xFFF + 1) = some ⟨.outOfBoundsAccess, 0x1000⟩) := by decide

theorem witness_RomIsLoadedVerbatim :
    launchWellFormed [0x60, 0x12] (List.replicate 80 0) = true ∧
    [0x60, 0x12] = (0x60 : Byte) :: 0x12 :: [] := by decide

/-- A state about to be reset. -/
def resetting (rom font : List Byte) : State := { start 0 with events := [.reset rom font] }

theorem witness_ResetEventEstablishesTheResetState :
    (resetting [0x60] (List.replicate 80 0)).events = .reset [0x60] (List.replicate 80 0) :: [] ∧
    [(0x60 : Byte)].length ≤ 3584 ∧ (List.replicate 80 (0 : Byte)).length = 80 := by
  refine ⟨rfl, ?_, ?_⟩ <;> decide

theorem witness_IllFormedLaunchIsRefused :
    (resetting (List.replicate 3585 0) []).events = .reset (List.replicate 3585 0) [] :: [] ∧
    3584 < (List.replicate 3585 (0 : Byte)).length :=
  ⟨rfl, by rw [List.length_replicate]; omega⟩

theorem witness_IllFormedLaunchIsRefused_font :
    (resetting [] (List.replicate 79 0)).events = .reset [] (List.replicate 79 0) :: [] ∧
    (List.replicate 79 (0 : Byte)).length ≠ 80 := ⟨rfl, by decide⟩

theorem witness_EveryStepKeepsInvariant : Inv (start 0) ∧ ∃ t, step (start 0) = .next t :=
  ⟨⟨by decide, by decide, by decide, by decide, trivial⟩, _, rfl⟩

theorem witness_StepRunsTheDecodedInstruction :
    RunsNext (start 0x6012) ⟨0, false, 0⟩ ∧
    (start 0x6012).memReadWord (start 0x6012).pc.toNat = .ok 0x6012 ∧
    decodeWord 0x6012 = .ok (.ldi 0 0x12) := ⟨⟨rfl, rfl, rfl⟩, by decide, by decide⟩

theorem witness_FetchFaultHaltsAtTheInstruction :
    RunsNext { start 0 with pc := 0xFFF } ⟨0, false, 0⟩ ∧
    State.memReadWord { start 0 with pc := 0xFFF } 0xFFF = .error ⟨.outOfBoundsAccess, 0x1000⟩ :=
  ⟨⟨rfl, rfl, rfl⟩, by decide⟩

theorem witness_UnrecognizedWordHalts :
    RunsNext (start 0x0001) ⟨0, false, 0⟩ ∧
    (start 0x0001).memReadWord (start 0x0001).pc.toNat = .ok 0x0001 ∧
    decodeWord 0x0001 = .error (.unrecognized 0x0001) := ⟨⟨rfl, rfl, rfl⟩, by decide, by decide⟩

theorem witness_TerminalStateStaysWithoutReset :
    State.run { start 0 with run := .finished } ≠ .running ∧
    ∀ rom font, HostEvent.reset rom font ∉ State.events { start 0 with run := .finished } :=
  ⟨by decide, fun _ _ => by simp [start]⟩

/-- A core that waits for a key, with the keys of its next Tick. -/
def waiting (keysIn : BitVec 16) : State :=
  { start 0 with wait := .awaitingKey 3, events := [.tick ⟨keysIn, false, 0⟩] }

theorem witness_WaitingTickResolvesTheLowestKey :
    (waiting 0).run = .running ∧ (waiting 0).wait = .awaitingKey 3 ∧
    (waiting 0).nextEvent.1 = .tick ⟨0, false, 0⟩ := ⟨rfl, rfl, rfl⟩

theorem witness_WaitingTickResolvesTheLowestKey_key15 :
    (waiting 0x8000).nextEvent.1 = .tick ⟨0x8000, false, 0⟩ ∧ 15 < 16 ∧
    (0x8000#16).getLsbD 15 = true ∧ ∀ j, j < 15 → (0x8000#16).getLsbD j = false :=
  ⟨rfl, by decide, by decide, by decide⟩

theorem witness_WaitingTickResolvesTheLowestKey_key0 :
    (waiting 0xFFFF).nextEvent.1 = .tick ⟨0xFFFF, false, 0⟩ ∧ 0 < 16 ∧
    (0xFFFF#16).getLsbD 0 = true ∧ ∀ j, j < 0 → (0xFFFF#16).getLsbD j = false :=
  ⟨rfl, by decide, by decide, by decide⟩

theorem witness_TimerStepCountsDownAndSounds :
    (start 0).run = .running ∧ State.run { start 0 with run := .finished } ≠ .running := by decide

theorem witness_TimersRunDownDuringTheWait :
    let s : State :=
      { waiting 0 with events := List.replicate 2 (.tick ⟨0, true, 0⟩) ++ [.renderAck] }
    s.run = .running ∧ s.wait = .awaitingKey 3 ∧
      s.events = List.replicate 2 (.tick ⟨0, true, 0⟩) ++ [.renderAck] := ⟨rfl, rfl, rfl⟩

/-- A core whose next event is a RenderAck. -/
def rendering : State := { start 0 with dirty := true, events := [.renderAck] }

theorem witness_RenderAckClearsDirtyWhereEnabled :
    rendering.events = .renderAck :: [] ∧ rendering.run = .running ∧ rendering.wait = .idle ∧
    rendering.dirty = true := ⟨rfl, rfl, rfl, rfl⟩

theorem witness_RenderAckClearsDirtyWhereEnabled_disabled :
    State.run { rendering with run := .finished } ≠ .running ∧
    State.wait { rendering with wait := .awaitingKey 0 } ≠ .idle ∧
    State.dirty { rendering with dirty := false } = false := by decide

theorem witness_OnlyRenderAckOrResetClearsDirty :
    ∃ t, step rendering = .next t ∧ rendering.dirty = true ∧ t.dirty = false := ⟨_, rfl, rfl, rfl⟩

theorem witness_ChangedFramebufferIsDirtyOrHalted :
    ∃ t, step drawing = .next t ∧ (∀ rom font, drawing.nextEvent.1 ≠ .reset rom font) ∧
      ¬Agrees drawing t .FB :=
  ⟨_, rfl, fun _ _ => nofun, fun h => absurd (h 0 0) (by decide)⟩

theorem witness_OnlyWaitkEntersTheWait :
    ∃ t, step (start 0xF30A) = .next t ∧ (start 0xF30A).wait = .idle ∧ t.wait = .awaitingKey 3 :=
  ⟨_, rfl, rfl, by decide⟩

theorem witness_OnlySelfJumpFinishes :
    ∃ t, step (start 0x1200) = .next t ∧ (start 0x1200).run = .running ∧ t.run = .finished :=
  ⟨_, rfl, rfl, by decide⟩

theorem witness_FaultsByInstruction :
    (start 0).run = .running ∧ ∃ t, exec (.skp 5) ((start 0).setReg 5 16) = .next t ∧
      t.run = .halted .invalidKeyIndex 16 := ⟨rfl, _, rfl, by decide⟩

theorem witness_RandomByteReachesOnlyRnd : ∀ x kk, Instr.skp 5 ≠ .rnd x kk := fun _ _ => nofun

theorem witness_KeysReachOnlyKeySkips :
    (∀ x, Instr.waitk 5 ≠ .skp x) ∧ ∀ x, Instr.waitk 5 ≠ .sknp x := ⟨fun _ => nofun, fun _ => nofun⟩

theorem witness_NopOnlyAdvances :
    (opOf 0x0FFF = 0 ∧ (0x0FFF : Word) ≠ 0x0000 ∧ (0x0FFF : Word) ≠ 0x00E0 ∧
      (0x0FFF : Word) ≠ 0x00EE) ∧
    RunsNext (start 0) ⟨0, false, 0⟩ ∧ (start 0).memReadWord (start 0).pc.toNat = .ok 0x0000 :=
  ⟨by decide, ⟨rfl, rfl, rfl⟩, by decide⟩

theorem witness_RetPopsTheLastEntry :
    (State.sp { start 0 with sp := 1 }).val = (0 : Fin 16).val + 1 ∧
    (State.sp { start 0 with sp := 16 }).val = (15 : Fin 16).val + 1 := by decide

theorem witness_CallPushesTheReturnAddress :
    (start 0).sp.val = (0 : Fin 16).val ∧
    (State.sp { start 0 with sp := 15 }).val = (15 : Fin 16).val := by decide

theorem witness_RetAfterCallResumes : (State.sp { start 0 with sp := 15 }).val < 16 := by decide

theorem witness_StackLimitsHalt :
    (start 0).sp.val = 0 ∧ (State.sp { start 0 with sp := 16 }).val = 16 := by decide

theorem witness_JmpSetsPcAndDetectsTheSelfJump :
    (start 0x1200).memReadWord (0x200 : Addr).toNat = .ok (encodeWord (.jmp 0x200)) ∧
    (start 0x1200).memReadWord (0x100 : Addr).toNat ≠ .ok (encodeWord (.jmp 0x100)) := by decide

theorem witness_RegisterSkipsTestAndSkip : (1 : Nibble) ≠ 0 ∧ (15 : Nibble) ≠ 0 := by decide

/-- The hypothesis of the flag clauses of `AddGivesSumAndCarry`, `SubtractionsGiveDifferenceAndFlag`
and `ShiftsMoveOneBitOut`. -/
theorem witness_flag_clauses : (0 : Nibble) ≠ 0xF ∧ (14 : Nibble) ≠ 0xF := by decide

theorem witness_BcdStoresThreeDigits :
    (start 0).mem.wf = true ∧ Accessible (State.dataBase { start 0 with I := 0x04D }) 3 ∧
    Accessible (State.dataBase { start 0 with I := 0x200 }) 3 ∧
    Accessible (State.dataBase { start 0 with I := 0xFFD }) 3 := by
  unfold Accessible
  decide

theorem witness_StmStoresTheRegisters :
    (start 0).mem.wf = true ∧
    Accessible (State.dataBase { start 0 with I := 0xFF0 }) ((15 : Nibble).toNat + 1) ∧
    Accessible (State.dataBase { start 0 with I := 0x04F }) ((0 : Nibble).toNat + 1) := by
  unfold Accessible
  decide

theorem witness_LdmLoadsTheRegisters :
    Accessible (State.dataBase { start 0 with I := 0x040 }) ((15 : Nibble).toNat + 1) ∧
    Accessible (State.dataBase { start 0 with I := 0xFFF }) ((0 : Nibble).toNat + 1) := by
  unfold Accessible
  decide

theorem witness_StoreFaultKeepsTheBytesStored :
    (start 0).mem.wf = true ∧ (2 : Nibble).toNat ≤ (2 : Nibble).toNat ∧
    Accessible (State.dataBase { start 0 with I := 0xFFE }) (2 : Nibble).toNat ∧
    checkAddress (State.dataBase { start 0 with I := 0xFFE } + (2 : Nibble).toNat) =
      some ⟨.outOfBoundsAccess, 0x1000⟩ := by
  unfold Accessible
  decide

theorem witness_StoreFaultKeepsTheBytesStored_bcd :
    (start 0).mem.wf = true ∧
    Accessible (State.dataBase { start 0 with I := 0x04E }) (2 : Fin 3).val ∧
    checkAddress (State.dataBase { start 0 with I := 0x04E } + (2 : Fin 3).val) =
      some ⟨.reservedRegionAccess, 0x050⟩ ∧
    Accessible (State.dataBase { start 0 with I := 0x1FE }) (0 : Fin 3).val ∧
    checkAddress (State.dataBase { start 0 with I := 0x1FE } + (0 : Fin 3).val) =
      some ⟨.reservedRegionAccess, 0x1FE⟩ := by
  unfold Accessible
  decide

theorem witness_LdmFaultKeepsTheRegistersLoaded :
    (15 : Nibble).toNat ≤ (15 : Nibble).toNat ∧
    Accessible (State.dataBase { start 0 with I := 0xFF1 }) (15 : Nibble).toNat ∧
    checkAddress (State.dataBase { start 0 with I := 0xFF1 } + (15 : Nibble).toNat) =
      some ⟨.outOfBoundsAccess, 0x1000⟩ := by
  unfold Accessible
  decide

theorem witness_ClsClearsEveryCell :
    (Framebuffer.blank.toggle 31 63).cell 31 63 = true ∧
    ∀ row col, Framebuffer.blank.cell row col = false := ⟨by decide, Framebuffer.cell_blank⟩

theorem witness_DrwTogglesTheSpritesCells :
    Accessible drawing.dataBase (15 : Nibble).toNat ∧ Accessible drawing.dataBase (0 : Nibble).toNat ∧
    spriteHits drawing.mem drawing.dataBase (drawing.reg 0) (drawing.reg 1) 2 0 0 0 = true ∧
    (Framebuffer.blank.toggle 0 0).cell 0 0 = true := by
  unfold Accessible
  decide

theorem witness_DrwTogglesTheSpritesCells_blank :
    ∀ row col, spriteHits drawing.mem drawing.dataBase (drawing.reg 0) (drawing.reg 1) 0 0 row col = false :=
  fun _ _ => rfl

theorem witness_DrwFaultKeepsTheRowsDrawn :
    (1 : Nibble).toNat < (2 : Nibble).toNat ∧
    Accessible (State.dataBase { start 0 with I := 0xFFF }) (1 : Nibble).toNat ∧
    checkAddress (State.dataBase { start 0 with I := 0xFFF } + (1 : Nibble).toNat) =
      some ⟨.outOfBoundsAccess, 0x1000⟩ := by
  unfold Accessible
  decide

theorem witness_DrawingTwiceRestoresTheFramebuffer :
    (0 : Nibble) ≠ 0xF ∧ (1 : Nibble) ≠ 0xF ∧ Accessible drawing.dataBase (2 : Nibble).toNat ∧
    spriteHits drawing.mem drawing.dataBase (drawing.reg 0) (drawing.reg 1) (2 : Nibble).toNat 0 0 0 = true ∧
    drawing.fb.cell 0 0 = false := by
  unfold Accessible
  decide

theorem witness_KeySkipsTestTheKey :
    (((start 0).setReg 5 15).reg 5).toNat ≤ 15 ∧ 15 < (((start 0).setReg 5 16).reg 5).toNat := by
  decide

theorem witness_WaitkEntersTheWait :
    RunsNext (start 0xF30A) ⟨0, false, 0⟩ ∧
    (start 0xF30A).memReadWord (start 0xF30A).pc.toNat = .ok (formatXK 0xF 3 0x0A) :=
  ⟨⟨rfl, rfl, rfl⟩, by decide⟩

/-- A word about to be run with a timer step due. -/
def timing (w : Word) : State := { start w with events := [.tick ⟨0, true, 0⟩] }

theorem witness_TimerStepFollowsTheInstruction :
    RunsNext (timing 0xF407) ⟨0, true, 0⟩ ∧
    (timing 0xF407).memReadWord (timing 0xF407).pc.toNat = .ok (formatXK 0xF 4 0x07) ∧
    (timing 0xF415).memReadWord (timing 0xF415).pc.toNat = .ok (formatXK 0xF 4 0x15) ∧
    (timing 0xF418).memReadWord (timing 0xF418).pc.toNat = .ok (formatXK 0xF 4 0x18) :=
  ⟨⟨rfl, rfl, rfl⟩, by decide, by decide, by decide⟩

end Sys2Proof.Tests
end

section
/-!
SUPPORT. The frame of every instruction (10_state.md section 1, the "written by" column): what the
shared operations and then `exec` may write, and so what they leave alone.
-/

namespace Sys2Proof.Machine

/-- Two updates, one after the other, write at most what the two lists name. -/
theorem SameBut.append {ps qs : List Part} {s t u : State} (h : SameBut ps s t)
    (h' : SameBut qs t u) : SameBut (ps ++ qs) s u :=
  (h.mono fun _ => List.mem_append_left qs).trans (h'.mono fun _ => List.mem_append_right ps)

theorem sameBut_clearScreen (s : State) : SameBut [.FB, .DIRTY] s s.clearScreen :=
  (sameBut_fb s Framebuffer.blank).append (sameBut_dirty _ _)

theorem sameBut_storeBytes (s : State) (a : Nat) (vs : List Byte) :
    SameBut [.MEM, .RUN] s (s.storeBytes a vs) := by
  obtain ⟨m, r, he, hfont, -, -⟩ := State.storeBytes_cases s a vs
  rw [he]
  exact (sameBut_mem s m hfont).append (sameBut_run _ r)

theorem sameBut_loadRegs (base count i : Nat) (s : State) :
    SameBut [.V, .RUN] s (State.loadRegs base count i s) := by
  obtain ⟨V, r, he, -, -⟩ := State.loadRegs_cases base count i s
  rw [he]
  exact (sameBut_V s V).append (sameBut_run _ r)

theorem sameBut_drawRows (vx vy : Byte) (count r : Nat) (coll changed : Bool) (s : State) :
    SameBut [.V, .FB, .DIRTY, .RUN] s (State.drawRows vx vy count r coll changed s) := by
  obtain ⟨V, fb, d, q, he, -, -, -⟩ := State.drawRows_cases vx vy count r coll changed s
  rw [he]
  exact (((sameBut_V s V).append (sameBut_fb _ fb)).append (sameBut_dirty _ d)).append
    (sameBut_run _ q)

/-- What a pushed state differs in (R93). -/
theorem sameBut_push {s t : State} {w : Word} (h : s.push w = .ok t) :
    SameBut [.STK, .SP] s t := by
  by_cases hsp : s.sp.val < 16
  · rw [State.push_ok s w hsp] at h
    cases h
    exact (sameBut_stk s (s.stk.set s.sp.val w hsp)).append (sameBut_sp _ _)
  · rw [State.push_full s w (by have := s.sp.isLt; omega)] at h
    cases h

/-- What a popped state differs in (R91). -/
theorem sameBut_pop {s t : State} {w : Word} (h : s.pop = .ok (w, t)) : SameBut [.SP] s t := by
  by_cases hsp : s.sp.val = 0
  · rw [State.pop_empty s hsp] at h
    cases h
  · rw [State.pop_ok s (by omega)] at h
    cases h
    exact sameBut_sp s _

/-- The outcome is a next state that differs from `s` in the listed parts at most. -/
def WritesOnly (o : Host.Outcome State Fault Refusal) (ps : List Part) (s : State) : Prop :=
  ∃ t, o = .next t ∧ SameBut ps s t

theorem SameBut.writesOnly {ps : List Part} {s t : State} (h : SameBut ps s t) :
    WritesOnly (.next t) ps s := ⟨t, rfl, h⟩

/-- A fault is within the parts of every instruction that can raise one. -/
theorem writesOnly_raise {ps : List Part} (s : State) (t : Trap) (h : .RUN ∈ ps) :
    WritesOnly (.next (s.raise t)) ps s :=
  ((sameBut_raise s t).mono (by simpa using h)).writesOnly

theorem execRet_writesOnly (s : State) : WritesOnly (execRet s) (partsOf .ret) s := by
  unfold execRet
  split
  case h_1 t _ => exact writesOnly_raise s t (by decide)
  case h_2 target s' hpop =>
    exact (((sameBut_pop hpop).append (sameBut_pc s' target)).mono (by decide)).writesOnly

theorem execJmp_writesOnly (nnn : Addr) (s : State) :
    WritesOnly (execJmp nnn s) (partsOf (.jmp nnn)) s :=
  ((sameBut_pc s (addrToWord nnn)).append (sameBut_run _ _)).writesOnly

theorem execCall_writesOnly (nnn : Addr) (s : State) :
    WritesOnly (execCall nnn s) (partsOf (.call nnn)) s := by
  unfold execCall
  split
  case h_1 t _ => exact writesOnly_raise s t (by simp [partsOf])
  case h_2 s' hpush =>
    refine (((sameBut_push hpush).append (sameBut_pc s' (addrToWord nnn))).mono ?_).writesOnly
    simp [partsOf]

theorem execSkp_writesOnly (x : Nibble) (s : State) :
    WritesOnly (execSkp x s) (partsOf (.skp x)) s := by
  unfold execSkp
  split
  case h_1 t _ => exact writesOnly_raise s t (by simp [partsOf])
  case h_2 pressed _ => exact ((sameBut_skipIf s pressed).mono (by simp [partsOf])).writesOnly

theorem execSknp_writesOnly (x : Nibble) (s : State) :
    WritesOnly (execSknp x s) (partsOf (.sknp x)) s := by
  unfold execSknp
  split
  case h_1 t _ => exact writesOnly_raise s t (by simp [partsOf])
  case h_2 pressed _ => exact ((sameBut_skipIf s (!pressed)).mono (by simp [partsOf])).writesOnly

theorem execDrw_writesOnly (x y n : Nibble) (s : State) :
    WritesOnly (execDrw x y n s) (partsOf (.drw x y n)) s :=
  (((sameBut_setReg s regF 0).append (sameBut_drawRows _ _ _ _ _ _ _)).mono
    (by simp [partsOf])).writesOnly

/-- Every instruction answers a next state and writes at most the parts of its row. -/
theorem exec_writesOnly (i : Instr) (s : State) : WritesOnly (exec i s) (partsOf i) s := by
  cases i with
  | nop => exact (sameBut_rfl _ s).writesOnly
  | cls => exact (sameBut_clearScreen s).writesOnly
  | ret => exact execRet_writesOnly s
  | jmp nnn => exact execJmp_writesOnly nnn s
  | call nnn => exact execCall_writesOnly nnn s
  | sei | snei | ser | sner => exact (sameBut_skipIf s _).writesOnly
  | ldi | addi | mov | or | and | xor | rnd | lddt => exact (sameBut_setReg s _ _).writesOnly
  | add | sub | shr | subn | shl => exact (sameBut_writeFlagThenResult s _ _ _).writesOnly
  | ldix | addix | font => exact (sameBut_I s _).writesOnly
  | jmpv0 => exact (sameBut_pc s _).writesOnly
  | drw x y n => exact execDrw_writesOnly x y n s
  | skp x => exact execSkp_writesOnly x s
  | sknp x => exact execSknp_writesOnly x s
  | waitk => exact (sameBut_wait s _).writesOnly
  | stdt => exact (sameBut_DT s _).writesOnly
  | stst => exact (sameBut_ST s _).writesOnly
  | bcd | stm => exact (sameBut_storeBytes s _ _).writesOnly
  | ldm => exact (sameBut_loadRegs _ _ _ s).writesOnly

/-- The inversion of `exec_writesOnly`: what a next state of an instruction differs in. -/
theorem exec_sameBut {i : Instr} {s t : State} (h : exec i s = .next t) :
    SameBut (partsOf i) s t := by
  obtain ⟨u, hu, hframe⟩ := exec_writesOnly i s
  cases h.symm.trans hu
  exact hframe

/-- Only `BCD` and `STM` have memory among their parts (R24). -/
theorem bcd_or_stm_of_MEM_mem_partsOf {i : Instr} (h : .MEM ∈ partsOf i) :
    (∃ x, i = .bcd x) ∨ ∃ x, i = .stm x := by
  cases i with
  | bcd x => exact .inl ⟨x, rfl⟩
  | stm x => exact .inr ⟨x, rfl⟩
  | _ => simp [partsOf] at h

end Sys2Proof.Machine
end

section
/-!
PROOF. The checked byte write (20_memory.md R44).
-/

open Sys2Proof Sys2Proof.Machine

/-- Settles O6: the write goes by the access check, then by the read-after-write law of the canonical
store; the frame of the instructions leaves memory to `BCD` and `STM`. -/
theorem checkedWriteChangesOneCell : Obligations.CheckedWriteChangesOneCell := by
  unfold Obligations.CheckedWriteChangesOneCell
  refine ⟨fun s a v hwf => ⟨fun t => State.memWrite_trap s v, fun hok => ?_⟩, ?_⟩
  · have hread := Memory.read_write hwf a
    refine ⟨_, State.memWrite_ok s v hok, ?_, fun b hb => ?_, ?_⟩
    · exact (hread a v).trans (if_pos rfl)
    · exact (hread b v).trans (if_neg hb)
    · exact sameBut_mem s _ (Memory.write_font s.mem a v)
  · intro i s t hbcd hstm hexec
    refine exec_sameBut hexec .MEM fun hmem => ?_
    rcases bcd_or_stm_of_MEM_mem_partsOf hmem with ⟨x, hx⟩ | ⟨x, hx⟩
    · exact hbcd x hx
    · exact hstm x hx

end

section
/-!
PROOF. The loading of the ROM (30_encoding.md R70): what the memory of a legal launch holds from
0x200 on.
-/

namespace Sys2Proof.Machine

/-- The ROM's share of a launch's memory (R70). -/
theorem Memory.read_ofLaunch_rom {rom font : List Byte} (h : launchWellFormed rom font = true)
    {j : Nat} (hj : j < rom.length) : (ofLaunch rom font).read (0x200 + j) = rom[j] := by
  obtain ⟨hrom, hfont⟩ := (launchWellFormed_iff rom font).1 h
  have habove : ¬ 0x200 + j < 80 := by omega
  have hin : 0x200 ≤ 0x200 + j ∧ 0x200 + j < 0x200 + rom.length := by omega
  rw [read_ofLaunch hrom hfont, dif_neg habove, dif_pos hin]
  simp only [Nat.add_sub_cancel_left]

/-- The first word fetched after a launch, byte 0 the high byte (R45, R70). -/
theorem State.memReadWord_launch (s : State) {b0 b1 : Byte} {rest font : List Byte}
    (h : launchWellFormed (b0 :: b1 :: rest) font = true) :
    (s.launch (b0 :: b1 :: rest) font).memReadWord 0x200 = .ok (wordOfBytes b0 b1) := by
  have hhigh : (Memory.ofLaunch (b0 :: b1 :: rest) font).read 0x200 = b0 :=
    Memory.read_ofLaunch_rom h (j := 0) (by simp)
  have hlow : (Memory.ofLaunch (b0 :: b1 :: rest) font).read (0x200 + 1) = b1 :=
    Memory.read_ofLaunch_rom h (j := 1) (by simp)
  rw [memReadWord_ok _ (by decide) (by decide), launch_mem, hhigh, hlow]

end Sys2Proof.Machine

open Sys2Proof Sys2Proof.Machine

/-- Settles O9: the launch's memory read byte by byte, and its first two bytes read as a word. -/
theorem romIsLoadedVerbatim : Obligations.RomIsLoadedVerbatim := by
  unfold Obligations.RomIsLoadedVerbatim
  intro s rom font h
  refine ⟨s.launch rom font, launch_ok s h, fun j hj => Memory.read_ofLaunch_rom h hj, ?_⟩
  rintro b0 b1 rest rfl
  exact ⟨wordOfBytes b0 b1, s.memReadWord_launch h, wordOfBytes_toNat b0 b1⟩

end

section
/-!
SUPPORT. Group 0 of the opcode map (30_encoding.md R64): its three words, and that `NOP` is decoded
from no other group.
-/

namespace Sys2Proof

/-- A word of group 0 is one of the three whole words of the map, or none (R64, R66). -/
theorem decodeWord_group0 {w : Word} (h : opOf w = 0) :
    decodeWord w =
      if w = 0x0000 then .ok .nop
      else if w = 0x00E0 then .ok .cls
      else if w = 0x00EE then .ok .ret
      else .error (.unrecognized w) := by
  simp only [decodeWord, h]
  rfl

theorem decodeAlu_ne_nop (w : Word) : decodeAlu w ≠ .ok .nop := by
  unfold decodeAlu
  split <;> simp

theorem decodeMisc_ne_nop (w : Word) : decodeMisc w ≠ .ok .nop := by
  unfold decodeMisc
  split <;> simp

/-- The other fifteen groups hold no `NOP`. -/
theorem opOf_of_decodeWord_nop {w : Word} (h : decodeWord w = .ok .nop) : opOf w = 0 := by
  unfold decodeWord at h
  split at h
  case h_1 hop => exact hop
  case h_9 => exact absurd h (decodeAlu_ne_nop w)
  case h_16 => exact absurd h (decodeMisc_ne_nop w)
  all_goals simp [ite_eq_iff] at h

/-- `NOP` has a single word (R90). -/
theorem decodeWord_eq_nop_iff (w : Word) : decodeWord w = .ok .nop ↔ w = 0x0000 := by
  constructor
  · intro h
    by_contra hw
    rw [decodeWord_group0 (opOf_of_decodeWord_nop h), if_neg hw] at h
    simp [ite_eq_iff] at h
  · rintro rfl
    rfl

end Sys2Proof
end

section
/-!
SUPPORT. The step of a running, idle core whose fetched word decodes (40_engine_cycle.md R81, R84),
and the end of a Tick with no timer step due.
-/

namespace Sys2Proof.Machine

/-- `step_runsNext` where an instruction is decoded: its rule at the entered state, then the end of
the Tick. -/
theorem step_decoded {s : State} {input : TickInput} {w : Word} {i : Instr}
    (h : RunsNext s input) (hfetch : s.memReadWord s.pc.toNat = .ok w)
    (hdecode : decodeWord w = .ok i) :
    step s = onNext (exec i (s.entered input)) (fun t => t.endTick input.timerDue) := by
  simp only [step_runsNext h, hfetch, hdecode]

/-- The advance of the cycle, as a number (R13, R84). -/
theorem entered_pc_toNat (s : State) (input : TickInput) :
    (s.entered input).pc.toNat = (s.pc.toNat + 2) % 65536 := by
  rw [entered_pc, BitVec.toNat_ofNat]

/-- With no timer step due, the end of a Tick only silences the tone (R163, R164). -/
theorem endTick_not_due (s : State) : s.endTick false = { s with tone := false } := by
  simp [State.endTick, State.timerStep]

/-- The rule of `NOP` (R90). -/
theorem exec_nop (s : State) : exec .nop s = .next s := rfl

end Sys2Proof.Machine
end

section
/-!
PROOF. `NOP` (41_system_flow.md R90).
-/

open Sys2Proof Sys2Proof.Machine

/-- Settles O31: group 0 of the decoder for the words; for the step, the frame of the entered state,
which the rule of `NOP` hands on as it is, followed by a Tick's end without a timer step. -/
theorem nopOnlyAdvances : Obligations.NopOnlyAdvances := by
  unfold Obligations.NopOnlyAdvances
  refine ⟨decodeWord_eq_nop_iff, fun w hop hnop hcls hret => ?_,
    fun s => ⟨s, exec_nop s, sameBut_rfl [] s⟩, fun s input hruns hdue hfetch => ?_⟩
  · rw [decodeWord_group0 hop, if_neg hnop, if_neg hcls, if_neg hret]
  · have hstep : step s = .next { s.entered input with tone := false } := by
      rw [step_decoded hruns hfetch rfl, exec_nop, onNext_next, hdue, endTick_not_due]
    exact ⟨_, hstep, entered_pc_toNat s input,
      (entered_sameBut s input).trans ((sameBut_tone _ false).mono (by decide))⟩

end

section
/-!
SUPPORT. The four groups of the opcode map that hold the register-compare skips (30_encoding.md R64),
and the conditional skip that their rules share (42_skips.md R104).
-/

namespace Sys2Proof

theorem decodeWord_group3 {w : Word} (h : opOf w = 0x3) :
    decodeWord w = .ok (.sei (xOf w) (kkOf w)) := by
  simp only [decodeWord, h]
  rfl

theorem decodeWord_group4 {w : Word} (h : opOf w = 0x4) :
    decodeWord w = .ok (.snei (xOf w) (kkOf w)) := by
  simp only [decodeWord, h]
  rfl

/-- A word of group 5 is an instruction only where its low nibble is 0 (R66, R102). -/
theorem decodeWord_group5 {w : Word} (h : opOf w = 0x5) :
    decodeWord w =
      if nOf w = 0 then .ok (.ser (xOf w) (yOf w)) else .error (.unrecognized w) := by
  simp only [decodeWord, h]
  rfl

/-- A word of group 9 is an instruction only where its low nibble is 0 (R66, R103). -/
theorem decodeWord_group9 {w : Word} (h : opOf w = 0x9) :
    decodeWord w =
      if nOf w = 0 then .ok (.sner (xOf w) (yOf w)) else .error (.unrecognized w) := by
  simp only [decodeWord, h]
  rfl

theorem decodeWord_sei (x : Nibble) (kk : Byte) :
    decodeWord (formatXK 0x3 x kk) = .ok (.sei x kk) := by
  rw [decodeWord_group3 (opOf_formatXK _ _ _), xOf_formatXK, kkOf_formatXK]

theorem decodeWord_snei (x : Nibble) (kk : Byte) :
    decodeWord (formatXK 0x4 x kk) = .ok (.snei x kk) := by
  rw [decodeWord_group4 (opOf_formatXK _ _ _), xOf_formatXK, kkOf_formatXK]

theorem decodeWord_formatXYN_5 (x y n : Nibble) :
    decodeWord (formatXYN 0x5 x y n) =
      if n = 0 then .ok (.ser x y) else .error (.unrecognized (formatXYN 0x5 x y n)) := by
  rw [decodeWord_group5 (opOf_formatXYN _ _ _ _), nOf_formatXYN, xOf_formatXYN, yOf_formatXYN]

theorem decodeWord_formatXYN_9 (x y n : Nibble) :
    decodeWord (formatXYN 0x9 x y n) =
      if n = 0 then .ok (.sner x y) else .error (.unrecognized (formatXYN 0x9 x y n)) := by
  rw [decodeWord_group9 (opOf_formatXYN _ _ _ _), nOf_formatXYN, xOf_formatXYN, yOf_formatXYN]

end Sys2Proof

namespace Sys2Proof.Machine

/-- The `pc` after a conditional skip, as a number (R104). -/
theorem State.skipIf_pc_toNat (s : State) (c : Bool) :
    (s.skipIf c).pc.toNat = if c then (s.pc.toNat + 2) % 65536 else s.pc.toNat := by
  rw [skipIf_pc, apply_ite BitVec.toNat, BitVec.toNat_ofNat]

/-- The outcome is a next state that differs from `s` in `pc` at most, where `pc` is moved by 2 more
exactly if `p` holds. -/
def SkipsExactlyIf (o : Host.Outcome State Fault Refusal) (p : Prop) [Decidable p]
    (s : State) : Prop :=
  ∃ t, o = .next t ∧ SameBut [.pc] s t ∧
    t.pc.toNat = if p then (s.pc.toNat + 2) % 65536 else s.pc.toNat

/-- A conditional skip on `c` skips exactly if the proposition `c` decides holds. -/
theorem skipIf_skipsExactlyIf {c : Bool} {p : Prop} [Decidable p] (s : State) (h : c = true ↔ p) :
    SkipsExactlyIf (.next (s.skipIf c)) p s := by
  refine ⟨_, rfl, sameBut_skipIf s c, ?_⟩
  simp only [State.skipIf_pc_toNat, h]

theorem exec_sei (x : Nibble) (kk : Byte) (s : State) :
    exec (.sei x kk) s = .next (s.skipIf (s.reg x = kk)) := rfl

theorem exec_snei (x : Nibble) (kk : Byte) (s : State) :
    exec (.snei x kk) s = .next (s.skipIf (s.reg x ≠ kk)) := rfl

theorem exec_ser (x y : Nibble) (s : State) :
    exec (.ser x y) s = .next (s.skipIf (s.reg x = s.reg y)) := rfl

theorem exec_sner (x y : Nibble) (s : State) :
    exec (.sner x y) s = .next (s.skipIf (s.reg x ≠ s.reg y)) := rfl

/-- The test of `SEI` and `SER` compares the bytes as numbers (R104). -/
theorem skipIf_eq_skipsExactlyIf (s : State) (a b : Byte) :
    SkipsExactlyIf (.next (s.skipIf (a = b))) (a.toNat = b.toNat) s :=
  skipIf_skipsExactlyIf s (by rw [decide_eq_true_iff, BitVec.toNat_inj])

/-- The test of `SNEI` and `SNER` compares the bytes as numbers (R104). -/
theorem skipIf_ne_skipsExactlyIf (s : State) (a b : Byte) :
    SkipsExactlyIf (.next (s.skipIf (a ≠ b))) (¬ a.toNat = b.toNat) s :=
  skipIf_skipsExactlyIf s (by rw [decide_eq_true_iff, BitVec.toNat_inj])

end Sys2Proof.Machine
end

section
/-!
PROOF. The register-compare skips (42_skips.md R100 to R103).
-/

open Sys2Proof Sys2Proof.Machine

/-- Settles O38: the words by the group each is in, the four rules by the conditional skip they share.
`SNEI` and `SNER` state their `pc` by the negated test. -/
theorem registerSkipsTestAndSkip : Obligations.RegisterSkipsTestAndSkip := by
  unfold Obligations.RegisterSkipsTestAndSkip
  refine ⟨fun x kk s => ⟨decodeWord_sei x kk, ?_⟩, fun x kk s => ⟨decodeWord_snei x kk, ?_⟩,
    fun x y s => ⟨decodeWord_formatXYN_5 x y 0, ?_⟩, fun x y s => ⟨decodeWord_formatXYN_9 x y 0, ?_⟩,
    fun x y n hn => ⟨?_, ?_⟩⟩
  · rw [exec_sei]
    exact skipIf_eq_skipsExactlyIf s (s.reg x) kk
  · rw [exec_snei]
    simpa only [SkipsExactlyIf, ite_not] using skipIf_ne_skipsExactlyIf s (s.reg x) kk
  · rw [exec_ser]
    exact skipIf_eq_skipsExactlyIf s (s.reg x) (s.reg y)
  · rw [exec_sner]
    simpa only [SkipsExactlyIf, ite_not] using skipIf_ne_skipsExactlyIf s (s.reg x) (s.reg y)
  · rw [decodeWord_formatXYN_5, if_neg hn]
  · rw [decodeWord_formatXYN_9, if_neg hn]

end

section
/-!
SUPPORT. The three groups of the opcode map that hold the loads, the immediate add and the
two-register operations (30_encoding.md R64), and the rules of them that write one register and no flag
(43_load_alu.md R110 to R115).
-/

namespace Sys2Proof

theorem decodeWord_group6 {w : Word} (h : opOf w = 0x6) :
    decodeWord w = .ok (.ldi (xOf w) (kkOf w)) := by
  simp only [decodeWord, h]
  rfl

theorem decodeWord_group7 {w : Word} (h : opOf w = 0x7) :
    decodeWord w = .ok (.addi (xOf w) (kkOf w)) := by
  simp only [decodeWord, h]
  rfl

theorem decodeWord_group8 {w : Word} (h : opOf w = 0x8) : decodeWord w = decodeAlu w := by
  simp only [decodeWord, h]
  rfl

theorem decodeWord_ldi (x : Nibble) (kk : Byte) :
    decodeWord (formatXK 0x6 x kk) = .ok (.ldi x kk) := by
  rw [decodeWord_group6 (opOf_formatXK _ _ _), xOf_formatXK, kkOf_formatXK]

theorem decodeWord_addi (x : Nibble) (kk : Byte) :
    decodeWord (formatXK 0x7 x kk) = .ok (.addi x kk) := by
  rw [decodeWord_group7 (opOf_formatXK _ _ _), xOf_formatXK, kkOf_formatXK]

theorem decodeWord_formatXYN_8 (x y n : Nibble) :
    decodeWord (formatXYN 0x8 x y n) = decodeAlu (formatXYN 0x8 x y n) :=
  decodeWord_group8 (opOf_formatXYN _ _ _ _)

theorem decodeWord_mov (x y : Nibble) : decodeWord (formatXYN 0x8 x y 0x0) = .ok (.mov x y) := by
  rw [decodeWord_formatXYN_8, decodeAlu, xOf_formatXYN, yOf_formatXYN, nOf_formatXYN]
  rfl

theorem decodeWord_or (x y : Nibble) : decodeWord (formatXYN 0x8 x y 0x1) = .ok (.or x y) := by
  rw [decodeWord_formatXYN_8, decodeAlu, xOf_formatXYN, yOf_formatXYN, nOf_formatXYN]
  rfl

theorem decodeWord_and (x y : Nibble) : decodeWord (formatXYN 0x8 x y 0x2) = .ok (.and x y) := by
  rw [decodeWord_formatXYN_8, decodeAlu, xOf_formatXYN, yOf_formatXYN, nOf_formatXYN]
  rfl

theorem decodeWord_xor (x y : Nibble) : decodeWord (formatXYN 0x8 x y 0x3) = .ok (.xor x y) := by
  rw [decodeWord_formatXYN_8, decodeAlu, xOf_formatXYN, yOf_formatXYN, nOf_formatXYN]
  rfl

/-- A word of group 8 with its two fixed nibbles in front, as the rules write it (R113 to R120). -/
theorem ofNat_eq_formatXYN_8 (x y n : Nibble) :
    BitVec.ofNat 16 (0x8000 + n.toNat + x.toNat * 256 + y.toNat * 16) = formatXYN 0x8 x y n := by
  have h : 0x8000 + n.toNat + x.toNat * 256 + y.toNat * 16 =
      0x8 * 4096 + x.toNat * 256 + y.toNat * 16 + n.toNat := by omega
  rw [h]
  rfl

end Sys2Proof

namespace Sys2Proof.Machine

/-- The outcome is a next state in which register `x` holds `v` and every other register and every
other part is as in `s`. -/
def SetsOnlyReg (o : Host.Outcome State Fault Refusal) (x : Nibble) (v : Byte) (s : State) : Prop :=
  ∃ t, o = .next t ∧ t.reg x = v ∧ RegsSameBut [x] s t ∧ SameBut [.V] s t

theorem setReg_setsOnlyReg (s : State) (x : Nibble) (v : Byte) :
    SetsOnlyReg (.next (s.setReg x v)) x v s :=
  ⟨_, rfl, State.reg_setReg_self s x v, regsSameBut_setReg s x v, sameBut_setReg s x v⟩

/-- The value set, bit by bit. -/
theorem SetsOnlyReg.bits {o : Host.Outcome State Fault Refusal} {x : Nibble} {v : Byte} {s : State}
    {f : Nat → Bool} (h : SetsOnlyReg o x v s) (hv : ∀ i, v.getLsbD i = f i) :
    ∃ t, o = .next t ∧ RegsSameBut [x] s t ∧ SameBut [.V] s t ∧
      ∀ i, i < 8 → (t.reg x).getLsbD i = f i := by
  obtain ⟨t, ho, rfl, hregs, hparts⟩ := h
  exact ⟨t, ho, hregs, hparts, fun i _ => hv i⟩

theorem exec_ldi (x : Nibble) (kk : Byte) (s : State) :
    exec (.ldi x kk) s = .next (s.setReg x kk) := rfl

theorem exec_addi (x : Nibble) (kk : Byte) (s : State) :
    exec (.addi x kk) s = .next (s.setReg x (BitVec.ofNat 8 ((s.reg x).toNat + kk.toNat))) := rfl

theorem exec_mov (x y : Nibble) (s : State) :
    exec (.mov x y) s = .next (s.setReg x (s.reg y)) := rfl

theorem exec_or (x y : Nibble) (s : State) :
    exec (.or x y) s = .next (s.setReg x (s.reg x ||| s.reg y)) := rfl

theorem exec_and (x y : Nibble) (s : State) :
    exec (.and x y) s = .next (s.setReg x (s.reg x &&& s.reg y)) := rfl

theorem exec_xor (x y : Nibble) (s : State) :
    exec (.xor x y) s = .next (s.setReg x (s.reg x ^^^ s.reg y)) := rfl

end Sys2Proof.Machine
end

section
/-!
PROOF. The loads, the immediate add and the logic operations (43_load_alu.md R110 to R115).
-/

open Sys2Proof Sys2Proof.Machine

/-- Settles O39: the words by the group each is in; each of the three rules is one register write, and
the sum of `ADDI` is reduced by the byte it is written to. -/
theorem loadsAndImmediateAddSetOneRegister : Obligations.LoadsAndImmediateAddSetOneRegister := by
  unfold Obligations.LoadsAndImmediateAddSetOneRegister
  refine ⟨fun x kk s => ⟨decodeWord_ldi x kk, ?_⟩, fun x kk s => ⟨decodeWord_addi x kk, ?_⟩,
    fun x y s => ⟨decodeWord_mov x y, ?_⟩⟩
  · rw [exec_ldi]
    exact setReg_setsOnlyReg s x kk
  · rw [exec_addi]
    obtain ⟨t, ht, hreg, hframe⟩ :=
      setReg_setsOnlyReg s x (BitVec.ofNat 8 ((s.reg x).toNat + kk.toNat))
    exact ⟨t, ht, by rw [hreg, BitVec.toNat_ofNat], hframe⟩
  · rw [exec_mov]
    exact setReg_setsOnlyReg s x (s.reg y)

/-- Settles O40: the words by the minor opcodes of group 8; each of the three rules is one register
write, of a value whose bits the library gives. -/
theorem logicWorksBitByBit : Obligations.LogicWorksBitByBit := by
  unfold Obligations.LogicWorksBitByBit
  intro x y s
  refine ⟨?_, ?_, ?_, ?_, ?_, ?_⟩
  · exact (congrArg decodeWord (ofNat_eq_formatXYN_8 x y 0x1)).trans (decodeWord_or x y)
  · exact (congrArg decodeWord (ofNat_eq_formatXYN_8 x y 0x2)).trans (decodeWord_and x y)
  · exact (congrArg decodeWord (ofNat_eq_formatXYN_8 x y 0x3)).trans (decodeWord_xor x y)
  · rw [exec_or]
    exact (setReg_setsOnlyReg s x _).bits fun i => BitVec.getLsbD_or
  · rw [exec_and]
    exact (setReg_setsOnlyReg s x _).bits fun i => BitVec.getLsbD_and
  · rw [exec_xor]
    exact (setReg_setsOnlyReg s x _).bits fun i => BitVec.getLsbD_xor

end

section
/-!
SUPPORT. Group A of the opcode map (30_encoding.md R64), the zero-extended address (R63), and the rule
of `LDIX` (44_index_memory.md R130).
-/

namespace Sys2Proof

theorem decodeWord_groupA {w : Word} (h : opOf w = 0xA) :
    decodeWord w = .ok (.ldix (nnnOf w)) := by
  simp only [decodeWord, h]
  rfl

theorem decodeWord_ldix (nnn : Addr) : decodeWord (formatA 0xA nnn) = .ok (.ldix nnn) := by
  rw [decodeWord_groupA (opOf_formatA _ _), nnnOf_formatA]

/-- A word of group A with its high nibble in front, as the rule writes it (R130). -/
theorem ofNat_eq_formatA_A (nnn : Addr) :
    BitVec.ofNat 16 (0xA000 + nnn.toNat) = formatA 0xA nnn := rfl

end Sys2Proof

namespace Sys2Proof.Machine

/-- Zero extension keeps the number (R63). -/
theorem addrToWord_toNat (nnn : Addr) : (addrToWord nnn).toNat = nnn.toNat :=
  BitVec.toNat_setWidth_of_le (by decide)

/-- The rule of `LDIX`: no address is checked, so there is no other outcome (R130). -/
theorem exec_ldix (nnn : Addr) (s : State) :
    exec (.ldix nnn) s = .next { s with I := addrToWord nnn } := rfl

end Sys2Proof.Machine
end

section
/-!
PROOF. `LDIX` (44_index_memory.md R130).
-/

open Sys2Proof Sys2Proof.Machine

/-- Settles O45: the word by the group it is in; the rule is one write of I, by a zero extension that
keeps the address's number. -/
theorem ldixLoadsTheIndex : Obligations.LdixLoadsTheIndex := by
  unfold Obligations.LdixLoadsTheIndex
  intro nnn s
  refine ⟨?_, _, exec_ldix nnn s, addrToWord_toNat nnn, sameBut_I s _⟩
  rw [ofNat_eq_formatA_A, decodeWord_ldix]

end

section
/-!
SUPPORT. A decoded word is of its instruction's group (30_encoding.md R64), so `CLS` is decoded from
group 0 only; and the rule of `CLS` (45_display.md R140).
-/

namespace Sys2Proof

theorem opOf_encodeWord_of_decodeAlu {w : Word} {i : Instr} (h : decodeAlu w = .ok i) :
    opOf (encodeWord i) = 0x8 := by
  unfold decodeAlu at h
  split at h <;> cases h <;> exact opOf_formatXYN _ _ _ _

theorem opOf_encodeWord_of_decodeMisc {w : Word} {i : Instr} (h : decodeMisc w = .ok i) :
    opOf (encodeWord i) = 0xF := by
  unfold decodeMisc at h
  split at h <;> cases h <;> exact opOf_formatXK _ _ _

/-- A word decodes only to instructions of its own group. -/
theorem opOf_encodeWord_of_decodeWord {w : Word} {i : Instr} (h : decodeWord w = .ok i) :
    opOf (encodeWord i) = opOf w := by
  unfold decodeWord at h
  dsimp only at h
  split at h
  case h_1 hop => split_ifs at h <;> cases h <;> exact hop.symm
  case h_6 hop | h_10 hop | h_15 hop => split_ifs at h <;> cases h <;> simp [encodeWord, hop]
  case h_9 hop => exact (opOf_encodeWord_of_decodeAlu h).trans hop.symm
  case h_16 hop => exact (opOf_encodeWord_of_decodeMisc h).trans hop.symm
  all_goals cases h <;> simp [encodeWord, *]

/-- `CLS` has a single word (R140). -/
theorem decodeWord_eq_cls_iff (w : Word) : decodeWord w = .ok .cls ↔ w = 0x00E0 := by
  constructor
  · intro h
    have hop : opOf w = 0 := (opOf_encodeWord_of_decodeWord h).symm
    rw [decodeWord_group0 hop] at h
    split_ifs at h with hnop hcls
    · cases h
    · exact hcls
    · cases h
  · rintro rfl
    rfl

end Sys2Proof

namespace Sys2Proof.Machine

/-- No cell is 1 exactly where every cell is 0. -/
theorem Framebuffer.anySet_eq_false_iff (fb : Framebuffer) :
    fb.anySet = false ↔ ∀ row col, fb.cell row col = false := by
  simp only [← Bool.not_eq_true, anySet_iff, not_exists]

@[simp] theorem State.clearScreen_fb (s : State) : s.clearScreen.fb = Framebuffer.blank := rfl

@[simp] theorem State.clearScreen_dirty (s : State) :
    s.clearScreen.dirty = (s.dirty || s.fb.anySet) := rfl

/-- The rule of `CLS` (R140). -/
theorem exec_cls (s : State) : exec .cls s = .next s.clearScreen := rfl

end Sys2Proof.Machine
end

section
/-!
PROOF. `CLS` (45_display.md R140).
-/

open Sys2Proof Sys2Proof.Machine

/-- Settles O52: group 0 of the decoder for the word; for the rule, the blank framebuffer and a DIRTY
that is joined with whether some cell was 1. -/
theorem clsClearsEveryCell : Obligations.ClsClearsEveryCell := by
  unfold Obligations.ClsClearsEveryCell
  refine ⟨decodeWord_eq_cls_iff, fun s => ⟨s.clearScreen, exec_cls s, fun row col => ?_,
    fun hset => ?_, fun hclear => ?_, sameBut_clearScreen s⟩⟩
  · rw [State.clearScreen_fb, Framebuffer.cell_blank]
  · rw [State.clearScreen_dirty, s.fb.anySet_iff.mpr hset, Bool.or_true]
  · rw [State.clearScreen_dirty, s.fb.anySet_eq_false_iff.mpr hclear, Bool.or_false]

end

section
/-!
SUPPORT. The groups of the opcode map no earlier section needed (30_encoding.md R64): one equation per
group, and per minor opcode of the groups 8 and F.
-/

namespace Sys2Proof

theorem decodeWord_group1 {w : Word} (h : opOf w = 0x1#4) :
    decodeWord w = .ok (.jmp (nnnOf w)) := by
  simp only [decodeWord, h]

theorem decodeWord_group2 {w : Word} (h : opOf w = 0x2#4) :
    decodeWord w = .ok (.call (nnnOf w)) := by
  simp only [decodeWord, h]

theorem decodeWord_groupB {w : Word} (h : opOf w = 0xB#4) :
    decodeWord w = .ok (.jmpv0 (nnnOf w)) := by
  simp only [decodeWord, h]

theorem decodeWord_groupC {w : Word} (h : opOf w = 0xC#4) :
    decodeWord w = .ok (.rnd (xOf w) (kkOf w)) := by
  simp only [decodeWord, h]

theorem decodeWord_groupD {w : Word} (h : opOf w = 0xD#4) :
    decodeWord w = .ok (.drw (xOf w) (yOf w) (nOf w)) := by
  simp only [decodeWord, h]

/-- A word of group E is one of the two key skips, by its low byte, or none (R66). -/
theorem decodeWord_groupE {w : Word} (h : opOf w = 0xE#4) :
    decodeWord w =
      if kkOf w = 0x9E#8 then .ok (.skp (xOf w))
      else if kkOf w = 0xA1#8 then .ok (.sknp (xOf w))
      else .error (.unrecognized w) := by
  simp only [decodeWord, h]

theorem decodeWord_groupF {w : Word} (h : opOf w = 0xF#4) : decodeWord w = decodeMisc w := by
  simp only [decodeWord, h]

/-- The minor opcodes of group 8 (R64). -/
theorem decodeAlu_encodeWord {i : Instr} (h : opOf (encodeWord i) = 0x8#4) :
    decodeAlu (encodeWord i) = .ok i := by
  cases i with
  | mov | or | and | xor | add | sub | shr | subn | shl => simp [encodeWord, decodeAlu]
  | nop | cls | ret => exact absurd h (by decide)
  | _ => simp [encodeWord] at h

/-- The minor opcodes of group F (R64). -/
theorem decodeMisc_encodeWord {i : Instr} (h : opOf (encodeWord i) = 0xF#4) :
    decodeMisc (encodeWord i) = .ok i := by
  cases i with
  | lddt | waitk | stdt | stst | addix | font | bcd | stm | ldm => simp [encodeWord, decodeMisc]
  | nop | cls | ret => exact absurd h (by decide)
  | _ => simp [encodeWord] at h

/-- The decoder undoes the encoder, group by group (R64, R65). -/
theorem decodeWord_encodeWord (i : Instr) : decodeWord (encodeWord i) = .ok i := by
  cases i with
  | nop | cls | ret => rfl
  | jmp nnn => rw [encodeWord, decodeWord_group1 (opOf_formatA _ _), nnnOf_formatA]
  | call nnn => rw [encodeWord, decodeWord_group2 (opOf_formatA _ _), nnnOf_formatA]
  | sei x kk => exact decodeWord_sei x kk
  | snei x kk => exact decodeWord_snei x kk
  | ser x y => exact decodeWord_formatXYN_5 x y 0
  | ldi x kk => exact decodeWord_ldi x kk
  | addi x kk => exact decodeWord_addi x kk
  | mov | or | and | xor | add | sub | shr | subn | shl =>
    refine (decodeWord_group8 ?_).trans (decodeAlu_encodeWord ?_) <;> exact opOf_formatXYN _ _ _ _
  | sner x y => exact decodeWord_formatXYN_9 x y 0
  | ldix nnn => exact decodeWord_ldix nnn
  | jmpv0 nnn => rw [encodeWord, decodeWord_groupB (opOf_formatA _ _), nnnOf_formatA]
  | rnd x kk =>
    rw [encodeWord, decodeWord_groupC (opOf_formatXK _ _ _), xOf_formatXK, kkOf_formatXK]
  | drw x y n =>
    rw [encodeWord, decodeWord_groupD (opOf_formatXYN _ _ _ _), xOf_formatXYN, yOf_formatXYN,
      nOf_formatXYN]
  | skp | sknp =>
    rw [encodeWord, decodeWord_groupE (opOf_formatXK _ _ _), xOf_formatXK, kkOf_formatXK]
    rfl
  | lddt | waitk | stdt | stst | addix | font | bcd | stm | ldm =>
    refine (decodeWord_groupF ?_).trans (decodeMisc_encodeWord ?_) <;> exact opOf_formatXK _ _ _

/-- The two bytes of an instruction, in memory order, are decoded as its word (R45, R60). -/
theorem decode_encode_append (i : Instr) (rest : List Byte) :
    decode (encode i ++ rest) = .ok (i, rest) := by
  simp only [encode, List.cons_append, List.nil_append, decode, wordOfBytes_bytes,
    decodeWord_encodeWord]

end Sys2Proof
end

section
/-!
PROOF. Decoding after encoding (30_encoding.md R60 to R65).
-/

open Sys2Proof

/-- Settles O1: the fields of each format are read back from its word, and the group with its minor
opcode picks the row; a word is put together again from its two bytes. -/
theorem decodeOfEncodeIsIdentity : Obligations.DecodeOfEncodeIsIdentity := by
  unfold Obligations.DecodeOfEncodeIsIdentity
  exact fun i rest => ⟨decodeWord_encodeWord i, decode_encode_append i rest⟩

end

section
/-!
SUPPORT. A word is put together again from its fields (30_encoding.md R61, R62), so the encoder undoes
the decoder.
-/

namespace Sys2Proof

theorem formatA_fields {w : Word} {op : Nibble} (h : opOf w = op) : formatA op (nnnOf w) = w := by
  subst h
  apply BitVec.eq_of_toNat_eq
  rw [formatA_toNat, opOf_toNat, nnnOf_toNat]
  omega

theorem formatXK_fields {w : Word} {op : Nibble} (h : opOf w = op) :
    formatXK op (xOf w) (kkOf w) = w := by
  subst h
  apply BitVec.eq_of_toNat_eq
  rw [formatXK_toNat, opOf_toNat, xOf_toNat, kkOf_toNat]
  omega

theorem formatXYN_fields {w : Word} {op : Nibble} (h : opOf w = op) :
    formatXYN op (xOf w) (yOf w) (nOf w) = w := by
  subst h
  apply BitVec.eq_of_toNat_eq
  rw [formatXYN_toNat, opOf_toNat, xOf_toNat, yOf_toNat, nOf_toNat]
  omega

theorem encodeWord_of_decodeAlu {w : Word} {i : Instr} (hop : opOf w = 0x8#4)
    (h : decodeAlu w = .ok i) : encodeWord i = w := by
  have hw := formatXYN_fields hop
  unfold decodeAlu at h
  dsimp only at h
  split at h <;> cases h <;> simpa only [encodeWord, *] using hw

theorem encodeWord_of_decodeMisc {w : Word} {i : Instr} (hop : opOf w = 0xF#4)
    (h : decodeMisc w = .ok i) : encodeWord i = w := by
  have hw := formatXK_fields hop
  unfold decodeMisc at h
  dsimp only at h
  split at h <;> cases h <;> simpa only [encodeWord, *] using hw

/-- The encoder undoes the decoder: each group keeps every field that its row leaves open (R64). -/
theorem encodeWord_of_decodeWord {w : Word} {i : Instr} (h : decodeWord w = .ok i) :
    encodeWord i = w := by
  unfold decodeWord at h
  dsimp only at h
  split at h
  case h_1 => split_ifs at h with h1 h2 h3 <;> cases h <;> simp only [encodeWord, *]
  case h_6 hop | h_10 hop =>
    split_ifs at h with hn
    cases h
    rw [encodeWord, ← hn, formatXYN_fields hop]
  case h_9 hop => exact encodeWord_of_decodeAlu hop h
  case h_14 hop => cases h; exact formatXYN_fields hop
  case h_15 hop =>
    split_ifs at h with hk hk <;> cases h <;> rw [encodeWord, ← hk, formatXK_fields hop]
  case h_16 hop => exact encodeWord_of_decodeMisc hop h
  case h_2 hop | h_3 hop | h_11 hop | h_12 hop => cases h; exact formatA_fields hop
  case h_4 hop | h_5 hop | h_7 hop | h_8 hop | h_13 hop => cases h; exact formatXK_fields hop
  case h_17 => cases h

end Sys2Proof
end

section
/-!
PROOF. Encoding after decoding (30_encoding.md R64, R65).
-/

open Sys2Proof

/-- Settles O2: a word is put together again from the fields its group reads and the ones it fixes. -/
theorem encodeOfDecodeIsIdentity : Obligations.EncodeOfDecodeIsIdentity := by
  unfold Obligations.EncodeOfDecodeIsIdentity
  exact fun w i => encodeWord_of_decodeWord

end

section
/-!
SUPPORT. A rejected word is rejected by its own name (30_encoding.md R65, R66).
-/

namespace Sys2Proof

theorem decodeAlu_error {w : Word} {e : DecodeError} (h : decodeAlu w = .error e) :
    e = .unrecognized w := by
  unfold decodeAlu at h
  split at h <;> cases h
  rfl

theorem decodeMisc_error {w : Word} {e : DecodeError} (h : decodeMisc w = .error e) :
    e = .unrecognized w := by
  unfold decodeMisc at h
  split at h <;> cases h
  rfl

/-- The only error of the decoder on a word names that word. -/
theorem decodeWord_error {w : Word} {e : DecodeError} (h : decodeWord w = .error e) :
    e = .unrecognized w := by
  unfold decodeWord at h
  dsimp only at h
  split at h
  case h_9 => exact decodeAlu_error h
  case h_16 => exact decodeMisc_error h
  case h_1 | h_6 | h_10 | h_15 => split_ifs at h; cases h; rfl
  all_goals cases h
  rfl

end Sys2Proof
end

section
/-!
SUPPORT. The rules of the control transfers, the memory transfers, the draw and the key skips as
equations, one per outcome (41_system_flow.md, 44_index_memory.md, 45_display.md, 46_keypad.md).
-/

namespace Sys2Proof.Machine

theorem exec_jmp (nnn : Addr) (s : State) :
    exec (.jmp nnn) s = .next
      { s with
        run := if s.peekWord nnn.toNat = some (encodeWord (.jmp nnn)) then .finished else s.run
        pc := addrToWord nnn } := by
  simp [exec, execJmp]

theorem exec_jmpv0 (nnn : Addr) (s : State) :
    exec (.jmpv0 nnn) s =
      .next { s with pc := BitVec.ofNat 16 ((s.reg reg0).toNat + nnn.toNat) } := rfl

/-- `CALL` with room on the stack (R93). -/
theorem exec_call_room (nnn : Addr) (s : State) (h : s.sp.val < 16) :
    exec (.call nnn) s = .next
      { s with
        stk := s.stk.set s.sp.val s.pc h
        sp := ⟨s.sp.val + 1, by omega⟩
        pc := addrToWord nnn } := by
  simp only [exec, execCall, State.push_ok s s.pc h]

theorem exec_call_full (nnn : Addr) (s : State) (h : s.sp.val = 16) :
    exec (.call nnn) s = .next (s.raise ⟨.stackOverflow, 16⟩) := by
  simp only [exec, execCall, State.push_full s s.pc h]

/-- `RET` with `j + 1` live entries (R91). -/
theorem exec_ret_live (s : State) (j : Fin 16) (h : s.sp.val = j.val + 1) :
    exec .ret s = .next { s with sp := ⟨j.val, by omega⟩, pc := s.stk[j.val] } := by
  have hpop : s.pop = .ok (s.stk[j.val], { s with sp := ⟨j.val, by omega⟩ }) := by
    rw [State.pop_ok s (by omega)]
    simp only [h, Nat.add_sub_cancel]
  simp only [exec, execRet, hpop]

/-- The stack is empty, or there is a last live entry (R15). -/
theorem sp_cases (s : State) : s.sp.val = 0 ∨ ∃ j : Fin 16, s.sp.val = j.val + 1 := by
  by_cases h : s.sp.val = 0
  · exact .inl h
  · exact .inr ⟨⟨s.sp.val - 1, by omega⟩, by simp only; omega⟩

theorem exec_ret_empty (s : State) (h : s.sp.val = 0) :
    exec .ret s = .next (s.raise ⟨.stackUnderflow, 0⟩) := by
  simp only [exec, execRet, State.pop_empty s h]

theorem exec_drw (x y n : Nibble) (s : State) :
    exec (.drw x y n) s =
      .next (State.drawRows (s.reg x) (s.reg y) n.toNat 0 false false (s.setReg regF 0)) := rfl

theorem exec_bcd (x : Nibble) (s : State) :
    exec (.bcd x) s = .next (s.storeBytes s.dataBase (bcdDigits (s.reg x))) := rfl

theorem exec_stm (x : Nibble) (s : State) :
    exec (.stm x) s = .next (s.storeBytes s.dataBase (s.regsUpTo x)) := rfl

theorem exec_ldm (x : Nibble) (s : State) :
    exec (.ldm x) s = .next (State.loadRegs s.dataBase (x.toNat + 1) 0 s) := rfl

/-- `SKP` with a key index (R150). -/
theorem exec_skp_key (x : Nibble) (s : State) (h : (s.reg x).toNat < 16) :
    exec (.skp x) s = .next (s.skipIf (s.keys.getLsbD (s.reg x).toNat)) := by
  simp only [exec, execSkp, State.keyPressed_ok s h]

theorem exec_skp_trap (x : Nibble) (s : State) (h : 16 ≤ (s.reg x).toNat) :
    exec (.skp x) s = .next (s.raise ⟨.invalidKeyIndex, byteToWord (s.reg x)⟩) := by
  simp only [exec, execSkp, State.keyPressed_trap s h]

/-- `SKNP` with a key index (R151). -/
theorem exec_sknp_key (x : Nibble) (s : State) (h : (s.reg x).toNat < 16) :
    exec (.sknp x) s = .next (s.skipIf (!s.keys.getLsbD (s.reg x).toNat)) := by
  simp only [exec, execSknp, State.keyPressed_ok s h]

theorem exec_sknp_trap (x : Nibble) (s : State) (h : 16 ≤ (s.reg x).toNat) :
    exec (.sknp x) s = .next (s.raise ⟨.invalidKeyIndex, byteToWord (s.reg x)⟩) := by
  simp only [exec, execSknp, State.keyPressed_trap s h]

/-- A key skip skips or not, or raises for an index above 15 (R150, R151). -/
theorem exec_keySkip_cases {i : Instr} {x : Nibble} (hi : i = .skp x ∨ i = .sknp x) (s : State) :
    (∃ c, exec i s = .next (s.skipIf c)) ∨ 16 ≤ (s.reg x).toNat ∧
      exec i s = .next (s.raise ⟨.invalidKeyIndex, byteToWord (s.reg x)⟩) := by
  rcases Nat.lt_or_ge (s.reg x).toNat 16 with hx | hx
  · rcases hi with rfl | rfl
    · exact .inl ⟨_, exec_skp_key x s hx⟩
    · exact .inl ⟨_, exec_sknp_key x s hx⟩
  · rcases hi with rfl | rfl
    · exact .inr ⟨hx, exec_skp_trap x s hx⟩
    · exact .inr ⟨hx, exec_sknp_trap x s hx⟩

theorem exec_waitk (x : Nibble) (s : State) :
    exec (.waitk x) s = .next { s with wait := .awaitingKey x } := rfl

/-- Zero extension keeps the number (R122). -/
theorem byteToWord_toNat (v : Byte) : (byteToWord v).toNat = v.toNat :=
  BitVec.toNat_setWidth_of_le (by decide)

end Sys2Proof.Machine
end

section
/-!
SUPPORT. The invariant along one step (10_state.md section 5): each part of the engine keeps it, and
every instruction does from the state it is entered in.
-/

namespace Sys2Proof.Machine

/-- The invariant speaks of five parts of the state only. -/
theorem Inv.of_same {s t : State} (h : Inv s) (hmem : t.mem = s.mem) (hpc : t.pc = s.pc)
    (hstk : t.stk = s.stk) (hwait : t.wait = s.wait) (hrun : t.run = s.run) : Inv t where
  memWf := hmem ▸ h.memWf
  pcBound := hpc ▸ h.pcBound
  stkBound := by rw [hstk]; exact h.stkBound
  waitRuns := by rw [hwait, hrun]; exact h.waitRuns
  infoFits := hrun ▸ h.infoFits

/-- What the invariant gives where an instruction is entered: the word at `pc` was read, so the
advanced `pc` is at most 0x1000 (R13), and the core is running and idle. -/
structure Ready (s : State) : Prop where
  memWf : s.mem.wf = true
  pcBound : s.pc.toNat ≤ 0x1000
  stkBound : ∀ j : Fin 16, (s.stk[j.val]).toNat ≤ 0x1000
  idle : s.wait = .idle
  runs : s.run = .running

/-- An instruction that leaves the stack and the wait alone keeps the invariant by what it does to
memory, `pc` and RUN. -/
theorem Ready.inv_of {s t : State} (h : Ready s) (hmem : t.mem.wf = true)
    (hpc : t.pc.toNat ≤ 0x10FE) (hstk : t.stk = s.stk) (hwait : t.wait = s.wait)
    (hrun : t.run = s.run ∨ InfoFits t.run) : Inv t where
  memWf := hmem
  pcBound := hpc
  stkBound := by rw [hstk]; exact h.stkBound
  waitRuns := by rw [hwait, h.idle]; exact fun hne => absurd rfl hne
  infoFits := by
    rcases hrun with hrun | hrun
    · rw [hrun, h.runs]; trivial
    · exact hrun

theorem Ready.inv {s : State} (h : Ready s) : Inv s :=
  h.inv_of h.memWf (h.pcBound.trans (by decide)) rfl rfl (.inl rfl)

/-- A jump within the bound of R94 keeps the invariant. -/
theorem Ready.inv_setPc {s : State} (h : Ready s) {a : Word} (ha : a.toNat ≤ 0x10FE) :
    Inv { s with pc := a } := h.inv_of h.memWf ha rfl rfl (.inl rfl)

theorem Ready.inv_skipIf {s : State} (h : Ready s) (c : Bool) : Inv (s.skipIf c) := by
  rw [State.skipIf_eq]
  refine h.inv_setPc ?_
  have := h.pcBound
  split
  · rw [BitVec.toNat_ofNat]
    omega
  · omega

theorem Inv.raise {s : State} (h : Inv s) (hidle : s.wait = .idle) {f : Trap}
    (hf : InfoFits (.halted f.cause f.info)) : Inv (s.raise f) where
  memWf := h.memWf
  pcBound := h.pcBound
  stkBound := h.stkBound
  waitRuns := fun hne => absurd hidle hne
  infoFits := hf

/-- An access of an instruction starts at `I`, so a trap of it records a fitting address. -/
theorem infoFits_of_access {s : State} {r : RunStatus}
    (h : r = s.run ∨ ∃ f : Trap, r = .halted f.cause f.info ∧ (s.dataBase < 65536 → InfoFits r)) :
    r = s.run ∨ InfoFits r :=
  h.imp_right fun ⟨_, _, hfits⟩ => hfits s.I.isLt

/-- The outcome is a next state that meets the invariant. -/
def AnswersInv (o : Host.Outcome State Fault Refusal) : Prop := ∃ t, o = .next t ∧ Inv t

theorem Ready.answersInv_storeBytes {s : State} (h : Ready s) (vs : List Byte) :
    AnswersInv (.next (s.storeBytes s.dataBase vs)) := by
  obtain ⟨m, r, he, -, hwf, hr⟩ := State.storeBytes_cases s s.dataBase vs
  rw [he]
  exact ⟨_, rfl, h.inv_of (hwf h.memWf) h.inv.pcBound rfl rfl (infoFits_of_access hr)⟩

theorem Ready.answersInv_ldm {s : State} (h : Ready s) (x : Nibble) :
    AnswersInv (exec (.ldm x) s) := by
  obtain ⟨V, r, he, -, hr⟩ := State.loadRegs_cases s.dataBase (x.toNat + 1) 0 s
  rw [exec_ldm, he]
  exact ⟨_, rfl, h.inv_of h.memWf h.inv.pcBound rfl rfl (infoFits_of_access hr)⟩

theorem Ready.answersInv_drw {s : State} (h : Ready s) (x y n : Nibble) :
    AnswersInv (exec (.drw x y n) s) := by
  obtain ⟨V, fb, d, q, he, -, -, hq⟩ :=
    State.drawRows_cases (s.reg x) (s.reg y) n.toNat 0 false false (s.setReg regF 0)
  rw [exec_drw, he]
  exact ⟨_, rfl, h.inv_of h.memWf h.inv.pcBound rfl rfl (infoFits_of_access hq)⟩

/-- A pushed entry is the advanced `pc`, at most 0x1000 (R13, R93). -/
theorem Ready.answersInv_call {s : State} (h : Ready s) (nnn : Addr) :
    AnswersInv (exec (.call nnn) s) := by
  by_cases hsp : s.sp.val < 16
  · refine ⟨_, exec_call_room nnn s hsp, ?_⟩
    exact
      { memWf := h.memWf
        pcBound := by
          have := nnn.isLt
          rw [addrToWord_toNat]
          omega
        stkBound := fun j => by
          rw [Vector.getElem_set]
          split
          · exact h.pcBound
          · exact h.stkBound j
        waitRuns := fun hne => absurd h.idle hne
        infoFits := h.inv.infoFits }
  · exact ⟨_, exec_call_full nnn s (by omega), h.inv.raise h.idle rfl⟩

theorem Ready.answersInv_ret {s : State} (h : Ready s) : AnswersInv (exec .ret s) := by
  rcases sp_cases s with hsp | ⟨j, hsp⟩
  · exact ⟨_, exec_ret_empty s hsp, h.inv.raise h.idle rfl⟩
  · refine ⟨_, exec_ret_live s j hsp, ?_⟩
    exact h.inv_of h.memWf ((h.stkBound j).trans (by decide)) rfl rfl (.inl rfl)

theorem Ready.answersInv_jmp {s : State} (h : Ready s) (nnn : Addr) :
    AnswersInv (exec (.jmp nnn) s) := by
  refine ⟨_, exec_jmp nnn s, h.inv_of h.memWf ?_ rfl rfl ?_⟩
  · have := nnn.isLt
    rw [addrToWord_toNat]
    omega
  · simp only
    split
    · exact .inr trivial
    · exact .inl rfl

theorem Ready.answersInv_jmpv0 {s : State} (h : Ready s) (nnn : Addr) :
    AnswersInv (exec (.jmpv0 nnn) s) := by
  refine ⟨_, exec_jmpv0 nnn s, h.inv_setPc ?_⟩
  have := nnn.isLt
  have := (s.reg reg0).isLt
  rw [BitVec.toNat_ofNat]
  omega

/-- A key index above 15 fits the cause it is recorded with (R150, R170). -/
theorem infoFits_invalidKeyIndex {v : Byte} (h : 16 ≤ v.toNat) :
    InfoFits (.halted .invalidKeyIndex (byteToWord v)) := by
  have := v.isLt
  rw [InfoFits, byteToWord_toNat]
  omega

theorem Ready.answersInv_keySkip {s : State} (h : Ready s) {i : Instr} {x : Nibble}
    (hi : i = .skp x ∨ i = .sknp x) : AnswersInv (exec i s) := by
  rcases exec_keySkip_cases hi s with ⟨c, hexec⟩ | ⟨hx, hexec⟩
  · exact ⟨_, hexec, h.inv_skipIf c⟩
  · exact ⟨_, hexec, h.inv.raise h.idle (infoFits_invalidKeyIndex hx)⟩

/-- The wait is entered by a core that runs (R152). -/
theorem Ready.answersInv_waitk {s : State} (h : Ready s) (x : Nibble) :
    AnswersInv (exec (.waitk x) s) :=
  ⟨_, exec_waitk x s, h.memWf, h.inv.pcBound, h.stkBound, fun _ => h.runs, h.inv.infoFits⟩

/-- Every instruction answers a state that meets the invariant. -/
theorem Ready.answersInv_exec {s : State} (h : Ready s) (i : Instr) : AnswersInv (exec i s) := by
  cases i with
  | nop => exact ⟨_, exec_nop s, h.inv⟩
  | ret => exact h.answersInv_ret
  | jmp nnn => exact h.answersInv_jmp nnn
  | call nnn => exact h.answersInv_call nnn
  | jmpv0 nnn => exact h.answersInv_jmpv0 nnn
  | sei | snei | ser | sner => exact ⟨_, rfl, h.inv_skipIf _⟩
  | drw x y n => exact h.answersInv_drw x y n
  | skp => exact h.answersInv_keySkip (.inl rfl)
  | sknp => exact h.answersInv_keySkip (.inr rfl)
  | waitk x => exact h.answersInv_waitk x
  | bcd | stm => exact h.answersInv_storeBytes _
  | ldm x => exact h.answersInv_ldm x
  | cls | ldi | addi | mov | or | and | xor | add | sub | shr | subn | shl | ldix | rnd | lddt |
    stdt | stst | addix | font =>
    exact ⟨_, rfl, h.inv.of_same rfl rfl rfl rfl rfl⟩

/-- The inversion of `Ready.answersInv_exec`. -/
theorem Ready.inv_exec {s t : State} {i : Instr} (h : Ready s) (hexec : exec i s = .next t) :
    Inv t := by
  obtain ⟨u, hu, hinv⟩ := h.answersInv_exec i
  cases hexec.symm.trans hu
  exact hinv

theorem Inv.nextEvent {s : State} (h : Inv s) : Inv s.nextEvent.2 := by
  unfold State.nextEvent
  split <;> exact h.of_same rfl rfl rfl rfl rfl

theorem Inv.beginTick {s : State} (h : Inv s) (input : TickInput) : Inv (s.beginTick input) :=
  h.of_same rfl rfl rfl rfl rfl

theorem Inv.endTick {s : State} (h : Inv s) (due : Bool) : Inv (s.endTick due) :=
  h.of_same rfl rfl rfl rfl rfl

/-- A resolved wait is over, one that is not goes on (R153). -/
theorem Inv.resolveKey {s : State} (h : Inv s) (r : Nibble) : Inv (s.resolveKey r) := by
  unfold State.resolveKey
  split
  · exact ⟨h.memWf, h.pcBound, h.stkBound, fun hne => absurd rfl hne, h.infoFits⟩
  · exact h

theorem Inv.renderAck {s : State} (h : Inv s) : Inv s.renderAck := by
  unfold State.renderAck
  split
  · exact h.of_same rfl rfl rfl rfl rfl
  · exact h

theorem inv_launch (s : State) {rom font : List Byte} (h : launchWellFormed rom font = true) :
    Inv (s.launch rom font) where
  memWf := Memory.wf_ofLaunch ((launchWellFormed_iff rom font).mp h).1
  pcBound := (by decide : (0x200 : Word).toNat ≤ 0x10FE)
  stkBound := (by decide : ∀ j : Fin 16, (State.reset.stk[j.val]).toNat ≤ 0x1000)
  waitRuns := fun _ => rfl
  infoFits := trivial

/-- A fault of the fetch records an address that fits its cause: `pc` is within its bound (R13). -/
theorem Inv.infoFits_fetch {s : State} (h : Inv s) {f : Trap}
    (hf : s.memReadWord s.pc.toNat = .error f) : InfoFits (.halted f.cause f.info) := by
  have hpc := h.pcBound
  rcases State.memReadWord_trap_inv hf with hc | ⟨-, hc⟩
  · exact infoFits_of_check hc (by omega)
  · exact infoFits_of_check hc (by omega)

/-- Where the word at `pc` could be read, the state an instruction is entered in is ready for it. -/
theorem Inv.ready_entered {s : State} (h : Inv s) {input : TickInput} {w : Word}
    (hruns : RunsNext s input) (hw : s.memReadWord s.pc.toNat = .ok w) :
    Ready (s.entered input) where
  memWf := by rw [entered_mem]; exact h.memWf
  pcBound := by
    obtain ⟨-, hlow, -⟩ := State.memReadWord_inv hw
    have hlast := (checkAddress_none _).mp hlow
    rw [entered_pc_toNat]
    omega
  stkBound := fun j => by
    rw [show (s.entered input).stk[j.val] = s.stk[j.val] from
      entered_sameBut s input .STK (by decide) j]
    exact h.stkBound j
  idle := by rw [entered_wait]; exact hruns.2.1
  runs := by rw [entered_run]; exact hruns.1

theorem Inv.step {s t : State} (h : Inv s) (hstep : step s = .next t) : Inv t := by
  rcases step_cases hstep with ⟨input, -, -, rfl⟩ | ⟨input, r, -, -, -, rfl⟩ |
    ⟨input, f, hruns, hf, rfl⟩ | ⟨input, w, e, hruns, hw, he, rfl⟩ |
    ⟨input, w, i, u, hruns, hw, -, hu, rfl⟩ | ⟨-, rfl⟩ | ⟨rom, font, -, hlaunch, rfl⟩
  · exact h.nextEvent.of_same rfl rfl rfl rfl rfl
  · exact ((h.nextEvent.beginTick input).resolveKey r).endTick _
  · refine ((h.nextEvent.beginTick input).raise ?_ (h.infoFits_fetch hf)).endTick _
    rw [State.beginTick_wait, nextEvent_wait]
    exact hruns.2.1
  · have hready := h.ready_entered hruns hw
    rw [decodeWord_error he] at he
    refine (hready.inv.raise hready.idle ?_).endTick _
    exact he
  · exact ((h.ready_entered hruns hw).inv_exec hu).endTick _
  · exact h.nextEvent.renderAck
  · exact inv_launch _ hlaunch

end Sys2Proof.Machine
end

section
/-!
PROOF. The invariant (10_state.md section 5, 60_exceptions.md section 1).
-/

open Sys2Proof Sys2Proof.Machine

/-- Settles O14: by the cases of a step; an instruction is entered with its word read, so with `pc` at
most 0x1000, and each rule moves it within the bound. -/
theorem everyStepKeepsInvariant : Obligations.EveryStepKeepsInvariant := by
  unfold Obligations.EveryStepKeepsInvariant
  exact fun s t h => h.step

/-- Settles O13: at reset memory lists no cell, the stack holds zeros and the core runs. -/
theorem resetStateMeetsInvariant : Obligations.ResetStateMeetsInvariant := by
  unfold Obligations.ResetStateMeetsInvariant
  exact ⟨rfl, by decide, by decide, fun _ => rfl, trivial⟩

end

section
/-!
SUPPORT. The rows of the opcode map as conditions on the fields of a word, and the words no row takes
(30_encoding.md R64, R66).
-/

namespace Sys2Proof

/-- Two rows that both match a word agree where both masks look; rows that do not are exclusive. -/
theorem agree_of_matchesRow {w : Word} {row row' : Word × Word} (h : matchesRow w row = true)
    (h' : matchesRow w row' = true) : row.2 &&& row'.1 = row'.2 &&& row.1 := by
  simp only [matchesRow, decide_eq_true_eq] at h h'
  rw [← h, ← h', BitVec.and_assoc, BitVec.and_assoc, BitVec.and_comm row.1]

/-- Any two rows of the map differ in a bit that both masks look at. -/
theorem opcodeMap_pairwise :
    opcodeMap.Pairwise fun row row' => row.2 &&& row'.1 ≠ row'.2 &&& row.1 := by
  decide

/-- A predicate that no two elements of a list share holds for at most one of them. -/
theorem countP_le_one_of_pairwise {α : Type} {p : α → Bool} {l : List α}
    (h : l.Pairwise fun a b => p a = true → ¬p b = true) : l.countP p ≤ 1 := by
  induction l with
  | nil => simp
  | cons a l ih =>
    obtain ⟨ha, hl⟩ := List.pairwise_cons.mp h
    by_cases hp : p a = true
    · have hnone : l.countP p = 0 := List.countP_eq_zero.mpr fun b hb => ha b hb hp
      rw [List.countP_cons_of_pos hp, hnone]
    · rw [List.countP_cons_of_neg hp]
      exact ih hl

theorem countP_matchesRow_le_one (w : Word) : opcodeMap.countP (matchesRow w) ≤ 1 :=
  countP_le_one_of_pairwise
    (opcodeMap_pairwise.imp fun hne h h' => hne (agree_of_matchesRow h h'))

/-- The word of every instruction matches its row. -/
theorem matchesRow_encodeWord (i : Instr) : matchesRow (encodeWord i) (rowOf i) = true := by
  cases i with
  | nop => exact Laws.MatchesRow.nop
  | cls => exact Laws.MatchesRow.cls
  | ret => exact Laws.MatchesRow.ret
  | jmp => exact Laws.MatchesRow.jmp _
  | call => exact Laws.MatchesRow.call _
  | sei => exact Laws.MatchesRow.sei _ _
  | snei => exact Laws.MatchesRow.snei _ _
  | ser => exact Laws.MatchesRow.ser _ _
  | ldi => exact Laws.MatchesRow.ldi _ _
  | addi => exact Laws.MatchesRow.addi _ _
  | mov => exact Laws.MatchesRow.mov _ _
  | or => exact Laws.MatchesRow.or _ _
  | and => exact Laws.MatchesRow.and _ _
  | xor => exact Laws.MatchesRow.xor _ _
  | add => exact Laws.MatchesRow.add _ _
  | sub => exact Laws.MatchesRow.sub _ _
  | shr => exact Laws.MatchesRow.shr _ _
  | subn => exact Laws.MatchesRow.subn _ _
  | shl => exact Laws.MatchesRow.shl _ _
  | sner => exact Laws.MatchesRow.sner _ _
  | ldix => exact Laws.MatchesRow.ldix _
  | jmpv0 => exact Laws.MatchesRow.jmpv0 _
  | rnd => exact Laws.MatchesRow.rnd _ _
  | drw => exact Laws.MatchesRow.drw _ _ _
  | skp => exact Laws.MatchesRow.skp _
  | sknp => exact Laws.MatchesRow.sknp _
  | lddt => exact Laws.MatchesRow.lddt _
  | waitk => exact Laws.MatchesRow.waitk _
  | stdt => exact Laws.MatchesRow.stdt _
  | stst => exact Laws.MatchesRow.stst _
  | addix => exact Laws.MatchesRow.addix _
  | font => exact Laws.MatchesRow.font _
  | bcd => exact Laws.MatchesRow.bcd _
  | stm => exact Laws.MatchesRow.stm _
  | ldm => exact Laws.MatchesRow.ldm _

/-- A word matches the row of the instruction it decodes to. -/
theorem matchesRow_rowOf_of_decodeWord {w : Word} {i : Instr} (h : decodeWord w = .ok i) :
    matchesRow w (rowOf i) = true := by
  rw [← encodeWord_of_decodeWord h]
  exact matchesRow_encodeWord i

/-- A row whose mask keeps a field fixes it (R64). -/
theorem opOf_of_matchesRow {w m c : Word} (h : matchesRow w (m, c) = true)
    (hmask : opOf m = BitVec.allOnes 4) : opOf w = opOf c := by
  simp only [matchesRow, decide_eq_true_eq] at h
  rw [← h, opOf, opOf, BitVec.extractLsb'_and, ← opOf, ← opOf, hmask, BitVec.and_allOnes]

theorem nOf_of_matchesRow {w m c : Word} (h : matchesRow w (m, c) = true)
    (hmask : nOf m = BitVec.allOnes 4) : nOf w = nOf c := by
  simp only [matchesRow, decide_eq_true_eq] at h
  rw [← h, nOf, nOf, BitVec.extractLsb'_and, ← nOf, ← nOf, hmask, BitVec.and_allOnes]

theorem kkOf_of_matchesRow {w m c : Word} (h : matchesRow w (m, c) = true)
    (hmask : kkOf m = BitVec.allOnes 8) : kkOf w = kkOf c := by
  simp only [matchesRow, decide_eq_true_eq] at h
  rw [← h, kkOf, kkOf, BitVec.extractLsb'_and, ← kkOf, ← kkOf, hmask, BitVec.and_allOnes]

/-- The mask of the first three rows keeps the whole word. -/
theorem eq_of_matchesRow {w m : Word} (h : matchesRow w (0xFFFF#16, m) = true) : w = m := by
  simpa only [matchesRow, decide_eq_true_eq, show 0xFFFF#16 = BitVec.allOnes 16 from rfl,
    BitVec.and_allOnes] using h

/-- A word that matches a row of the map is decoded. -/
theorem exists_decodeWord_of_matchesRow {w : Word} {i : Instr}
    (h : matchesRow w (rowOf i) = true) : ∃ j, decodeWord w = .ok j := by
  cases i with
  | nop | cls | ret => rw [eq_of_matchesRow h]; exact ⟨_, rfl⟩
  | jmp => exact ⟨_, decodeWord_group1 (opOf_of_matchesRow h rfl)⟩
  | call => exact ⟨_, decodeWord_group2 (opOf_of_matchesRow h rfl)⟩
  | sei => exact ⟨_, decodeWord_group3 (opOf_of_matchesRow h rfl)⟩
  | snei => exact ⟨_, decodeWord_group4 (opOf_of_matchesRow h rfl)⟩
  | ser =>
    have hgroup := decodeWord_group5 (opOf_of_matchesRow h rfl)
    exact ⟨_, hgroup.trans (if_pos (nOf_of_matchesRow h rfl))⟩
  | ldi => exact ⟨_, decodeWord_group6 (opOf_of_matchesRow h rfl)⟩
  | addi => exact ⟨_, decodeWord_group7 (opOf_of_matchesRow h rfl)⟩
  | mov | or | and | xor | add | sub | shr | subn | shl =>
    rw [decodeWord_group8 (opOf_of_matchesRow h rfl), decodeAlu, nOf_of_matchesRow h rfl]
    exact ⟨_, rfl⟩
  | sner =>
    have hgroup := decodeWord_group9 (opOf_of_matchesRow h rfl)
    exact ⟨_, hgroup.trans (if_pos (nOf_of_matchesRow h rfl))⟩
  | ldix => exact ⟨_, decodeWord_groupA (opOf_of_matchesRow h rfl)⟩
  | jmpv0 => exact ⟨_, decodeWord_groupB (opOf_of_matchesRow h rfl)⟩
  | rnd => exact ⟨_, decodeWord_groupC (opOf_of_matchesRow h rfl)⟩
  | drw => exact ⟨_, decodeWord_groupD (opOf_of_matchesRow h rfl)⟩
  | skp | sknp =>
    rw [decodeWord_groupE (opOf_of_matchesRow h rfl), kkOf_of_matchesRow h rfl]
    exact ⟨_, rfl⟩
  | lddt | waitk | stdt | stst | addix | font | bcd | stm | ldm =>
    rw [decodeWord_groupF (opOf_of_matchesRow h rfl), decodeMisc, kkOf_of_matchesRow h rfl]
    exact ⟨_, rfl⟩

/-- A rejected word matches no row. -/
theorem matchesRow_eq_false_of_decodeWord {w : Word} {e : DecodeError}
    (h : decodeWord w = .error e) {row : Word × Word} (hrow : row ∈ opcodeMap) :
    matchesRow w row = false := by
  obtain ⟨i, -, rfl⟩ := List.mem_map.mp hrow
  by_contra hmatch
  obtain ⟨j, hj⟩ := exists_decodeWord_of_matchesRow (Bool.eq_true_of_not_eq_false hmatch)
  cases h.symm.trans hj

/-- The nibbles group 8 has no row for (R66). -/
theorem decodeAlu_eq_unrecognized_iff (w : Word) :
    decodeAlu w = .error (.unrecognized w) ↔
      nOf w ∈ [0x8#4, 0x9, 0xA, 0xB, 0xC, 0xD, 0xF] := by
  unfold decodeAlu
  generalize nOf w = n
  split <;> simp
  revert n
  decide

/-- The low bytes group F has no row for (R66). -/
theorem decodeMisc_eq_unrecognized_iff (w : Word) :
    decodeMisc w = .error (.unrecognized w) ↔
      kkOf w ∉ [0x07#8, 0x0A, 0x15, 0x18, 0x1E, 0x29, 0x33, 0x55, 0x65] := by
  unfold decodeMisc
  split <;> simp [*]
  and_intros <;> assumption

end Sys2Proof
end

section
/-!
PROOF. The opcode map and the words outside it (30_encoding.md sections 3 and 5).
-/

open Sys2Proof

/-- Settles O3: any two rows differ in a bit that both masks look at; a decoded word is its
instruction's word, and a word with the fields a row fixes is decoded. -/
theorem wordDecodesByTheRowItMatches : Obligations.WordDecodesByTheRowItMatches := by
  unfold Obligations.WordDecodesByTheRowItMatches
  refine fun w => ⟨countP_matchesRow_le_one w, ?_⟩
  cases hw : decodeWord w with
  | ok i => exact .inl ⟨i, rfl, matchesRow_rowOf_of_decodeWord hw⟩
  | error e =>
    refine .inr ⟨?_, fun row hrow => matchesRow_eq_false_of_decodeWord hw hrow⟩
    rw [decodeWord_error hw]

/-- Settles O4: by the groups of the decoder; the ten with no condition take every word. -/
theorem unrecognizedWordsByGroup : Obligations.UnrecognizedWordsByGroup := by
  unfold Obligations.UnrecognizedWordsByGroup
  intro w
  unfold decodeWord
  dsimp only
  split
  case h_9 hop => simp [hop, decodeAlu_eq_unrecognized_iff]
  case h_16 hop => simp [hop, decodeMisc_eq_unrecognized_iff]
  case h_1 hop | h_6 hop | h_10 hop | h_15 hop => simp [hop, ite_eq_iff]
  case h_17 =>
    exfalso
    generalize opOf w = op at *
    revert op
    decide
  all_goals simp [*]

/-- Settles O5: the decoder run on ten fixed lists of bytes. -/
theorem sampleWordsDecodeRight : Obligations.SampleWordsDecodeRight := by
  unfold Obligations.SampleWordsDecodeRight
  decide

end

section
/-!
PROOF. The checked reads (20_memory.md sections 2 and 3).
-/

open Sys2Proof Sys2Proof.Machine

/-- Settles O7: by the three cases of the access check. -/
theorem accessCheckByRegion : Obligations.AccessCheckByRegion := by
  unfold Obligations.AccessCheckByRegion
  intro s a
  rcases checkAddress_cases a with ⟨ha, hcheck⟩ | ⟨ha, hcheck⟩ | ⟨ha, hcheck⟩
  · refine ⟨fun _ => by omega, fun _ _ => by omega, fun _ => ?_⟩
    exact ⟨_, s.memRead_trap hcheck, BitVec.toNat_ofNat a 16⟩
  · refine ⟨fun _ => by omega, fun _ _ => ⟨_, s.memRead_trap hcheck, ?_⟩, fun _ => by omega⟩
    rw [BitVec.toNat_ofNat]
    omega
  · exact ⟨fun _ => s.memRead_ok hcheck, fun _ _ => by omega, fun _ => by omega⟩

/-- Settles O8: the word read by the checks of its two bytes, the high one first. -/
theorem wordReadIsBigEndian : Obligations.WordReadIsBigEndian := by
  unfold Obligations.WordReadIsBigEndian
  refine fun s a => ⟨fun hhigh hlow => ?_, fun t => s.memReadWord_trap_high,
    fun t => s.memReadWord_trap_low⟩
  exact ⟨_, s.memReadWord_ok hhigh hlow, wordOfBytes_toNat _ _⟩

end

section
/-!
SUPPORT. A step that takes a Reset (70_reset_and_hazards.md R190), and the event at the head of the
queue (40_engine_cycle.md R80).
-/

namespace Sys2Proof.Machine

theorem nextEvent_cons {s : State} {e : HostEvent} {rest : List HostEvent}
    (h : s.events = e :: rest) : s.nextEvent = (e, { s with events := rest }) := by
  simp only [State.nextEvent, h]

theorem step_reset {s : State} {rom font : List Byte} {rest : List HostEvent}
    (h : s.events = .reset rom font :: rest) :
    step s = launch rom font { s with events := rest } := by
  simp only [step, nextEvent_cons h, deliver]

/-- At reset every register is 0, and so after every launch (R190). -/
theorem reset_reg : ∀ r, State.reset.reg r = 0 := by decide

theorem reset_stk : ∀ j : Fin 16, State.reset.stk[j.val] = 0 := by decide

theorem reset_cell (row : Fin 32) (col : Fin 64) : State.reset.fb.cell row col = false :=
  Framebuffer.cell_blank row col

theorem reset_read {a : Nat} (h : 80 ≤ a) : State.reset.mem.read a = 0 := by
  simp [State.reset, Memory.read, Memory.find, Memory.unlisted, Nat.not_lt.mpr h]

theorem launch_illFormed (s : State) {rom font : List Byte}
    (h : 3584 < rom.length ∨ font.length ≠ 80) :
    launch rom font s = .refused (.launchRefused rom.length font.length) := by
  refine if_neg fun hwf => ?_
  have := (launchWellFormed_iff rom font).mp hwf
  omega

end Sys2Proof.Machine
end

section
/-!
PROOF. Reset (70_reset_and_hazards.md section 1).
-/

open Sys2Proof Sys2Proof.Machine

/-- Settles O10: a launch is the reset state with the launch's memory, read byte by byte. -/
theorem resetEventEstablishesTheResetState : Obligations.ResetEventEstablishesTheResetState := by
  unfold Obligations.ResetEventEstablishesTheResetState
  intro s rom font rest hevents hrom hfont
  have hlegal := (launchWellFormed_iff rom font).mpr ⟨hrom, hfont⟩
  have hstep := (step_reset hevents).trans (launch_ok _ hlegal)
  exact ⟨_, hstep, reset_reg, rfl, rfl, rfl, reset_stk, rfl, rfl, reset_cell, rfl, rfl, rfl, rfl,
    rfl, rfl, rfl, Memory.read_ofLaunch hrom hfont⟩

/-- Settles O11: the launch's two checks, as numbers. -/
theorem illFormedLaunchIsRefused : Obligations.IllFormedLaunchIsRefused := by
  unfold Obligations.IllFormedLaunchIsRefused
  intro s rom font rest hevents hill
  rw [step_reset hevents, launch_illFormed _ hill]

/-- Settles O12: field by field; above the font the memory of reset lists no cell. -/
theorem resetStateValues : Obligations.ResetStateValues := by
  unfold Obligations.ResetStateValues
  exact ⟨reset_reg, rfl, rfl, rfl, reset_stk, rfl, rfl, reset_cell, rfl, rfl, rfl, rfl,
    fun _ => reset_read⟩

end

section
/-!
SUPPORT. A Tick of a running core that runs no instruction: the fetch that faults, the word no row
takes, and the wait (40_engine_cycle.md R81 to R84, 60_exceptions.md R172).
-/

namespace Sys2Proof.Machine

/-- `step_runsNext` where the fetch faults: RUN is set, `pc` is where it was, no timer steps. -/
theorem step_fetchFault {s : State} {input : TickInput} {f : Trap} (h : RunsNext s input)
    (hfetch : s.memReadWord s.pc.toNat = .error f) :
    step s = .next { (s.nextEvent.2.beginTick input).raise f with tone := false } := by
  simp only [step_runsNext h, hfetch, onNext_next]
  rw [endTick_halted (by rw [State.raise_run]; exact RunStatus.noConfusion)]

/-- `step_runsNext` where no row takes the word: RUN is set at the entered state, no timer steps. -/
theorem step_unrecognized {s : State} {input : TickInput} {w : Word} {e : DecodeError}
    (h : RunsNext s input) (hfetch : s.memReadWord s.pc.toNat = .ok w)
    (hdecode : decodeWord w = .error e) :
    step s = .next
      { (s.entered input).raise ⟨.unrecognizedOpcode, w⟩ with tone := false } := by
  simp only [step_runsNext h, hfetch, hdecode, onNext_next]
  rw [endTick_halted (by rw [State.raise_run]; exact RunStatus.noConfusion)]

/-- A Tick of a waiting core resolves the key and ends (R81, R153). -/
theorem step_waiting {s : State} {input : TickInput} {r : Nibble} (hrun : s.run = .running)
    (hwait : s.wait = .awaitingKey r) (hevent : s.nextEvent.1 = .tick input) :
    step s = .next (((s.nextEvent.2.beginTick input).resolveKey r).endTick input.timerDue) := by
  rw [step_tick hevent, tick_waiting input ((nextEvent_run s).trans hrun)
    ((nextEvent_wait s).trans hwait)]

theorem entered_instrCount (s : State) (input : TickInput) :
    (s.entered input).instrCount = s.instrCount + 1 :=
  congrArg (· + 1) (sameBut_nextEvent s .instrCount (by decide))

/-- The state a Tick begins in differs in the inputs and the queue. -/
theorem sameBut_begun (s : State) (input : TickInput) :
    SameBut [.hostQueue, .tone, .K, .rnd] s (s.nextEvent.2.beginTick input) :=
  (sameBut_nextEvent s).append (sameBut_beginTick _ input)

/-- The least pressed key is the one found (R153). -/
theorem lowestKey_eq_some {keys : BitVec 16} {k : Nat} (hk : k < 16)
    (hpressed : keys.getLsbD k = true) (hleast : ∀ j, j < k → keys.getLsbD j = false) :
    lowestKey keys = some k := by
  unfold lowestKey
  rw [List.find?_range_eq_some]
  exact ⟨hpressed, List.mem_range.mpr hk, fun j hj => by rw [hleast j hj]; rfl⟩

/-- A step down by one, not below 0 (R163). -/
theorem countDown_toNat (t : Byte) : (countDown t).toNat = t.toNat - 1 := by
  have := t.isLt
  rw [countDown, BitVec.toNat_ofNat]
  omega

/-- The timer step of a running core in a Tick whose step is due (R163, R164). -/
theorem endTick_due {s : State} (h : s.run = .running) :
    s.endTick true =
      { s with tone := s.ST != 0, DT := countDown s.DT, ST := countDown s.ST } := by
  simp [State.endTick, State.timerStep, h]

theorem endTick_due_DT {s : State} (h : s.run = .running) :
    (s.endTick true).DT.toNat = s.DT.toNat - 1 := by
  rw [endTick_due h]
  exact countDown_toNat s.DT

theorem endTick_due_ST {s : State} (h : s.run = .running) :
    (s.endTick true).ST.toNat = s.ST.toNat - 1 := by
  rw [endTick_due h]
  exact countDown_toNat s.ST

theorem endTick_due_tone {s : State} (h : s.run = .running) :
    (s.endTick true).tone = true ↔ s.ST ≠ 0 := by
  rw [endTick_due h]
  exact bne_iff_ne

end Sys2Proof.Machine
end

section
/-!
PROOF. The Tick (40_engine_cycle.md sections 2 and 3, 60_exceptions.md sections 2 and 5).
-/

open Sys2Proof Sys2Proof.Machine

/-- Settles O15: the step lemma of a decoded word, and the entered state part by part. -/
theorem stepRunsTheDecodedInstruction : Obligations.StepRunsTheDecodedInstruction := by
  unfold Obligations.StepRunsTheDecodedInstruction
  intro s input w i hruns hfetch hdecode
  exact ⟨step_decoded hruns hfetch hdecode, entered_pc_toNat s input, entered_keys s input,
    entered_rnd s input, entered_instrCount s input, entered_sameBut s input⟩

/-- Settles O16: the trap is raised in the state the Tick began in, and a halted core steps no
timer. -/
theorem fetchFaultHaltsAtTheInstruction : Obligations.FetchFaultHaltsAtTheInstruction := by
  unfold Obligations.FetchFaultHaltsAtTheInstruction
  intro s input f hruns hfetch
  refine ⟨_, step_fetchFault hruns hfetch, rfl, rfl, rfl, ?_⟩
  exact (((sameBut_begun s input).append (sameBut_raise _ f)).append (sameBut_tone _ false)).mono
    (by decide)

/-- Settles O17: the trap is raised in the entered state, and a halted core steps no timer. -/
theorem unrecognizedWordHalts : Obligations.UnrecognizedWordHalts := by
  unfold Obligations.UnrecognizedWordHalts
  intro s input w hruns hfetch hdecode
  refine ⟨_, step_unrecognized hruns hfetch hdecode, rfl, entered_pc_toNat s input,
    entered_keys s input, rfl, entered_instrCount s input, ?_⟩
  exact (((entered_sameBut s input).append (sameBut_raise _ _)).append (sameBut_tone _ false)).mono
    (by decide)

/-- Settles O20: the timer step as an equation, where it is due and where not. -/
theorem timerStepCountsDownAndSounds : Obligations.TimerStepCountsDownAndSounds := by
  unfold Obligations.TimerStepCountsDownAndSounds
  refine fun s due => ⟨fun hrun hdue => ?_, fun hnot => ?_, sameBut_endTick s due⟩
  · rw [hdue]
    exact ⟨endTick_due_DT hrun, endTick_due_ST hrun, endTick_due_tone hrun⟩
  · have hquiet : s.endTick due = { s with tone := false } := by
      rcases hnot with hrun | rfl
      · exact endTick_halted hrun due
      · exact endTick_not_due s
    rw [hquiet]
    exact ⟨rfl, rfl, rfl⟩

/-- Settles O19: the key resolution with no key pressed and with a least one, between the beginning
and the end of the Tick. -/
theorem waitingTickResolvesTheLowestKey : Obligations.WaitingTickResolvesTheLowestKey := by
  unfold Obligations.WaitingTickResolvesTheLowestKey
  refine fun s input r hrun hwait hevent => ⟨fun hkeys => ?_, fun k hk hpressed hleast => ?_⟩
  · have hstep := step_waiting hrun hwait hevent
    rw [State.resolveKey_none _ r hkeys] at hstep
    exact ⟨_, hstep, hkeys, ((sameBut_begun s input).append (sameBut_endTick _ _)).mono (by decide)⟩
  · have hstep := step_waiting hrun hwait hevent
    have hlow : lowestKey (s.nextEvent.2.beginTick input).keys = some k :=
      lowestKey_eq_some hk hpressed hleast
    rw [State.resolveKey_some _ r hlow] at hstep
    refine ⟨_, hstep, rfl, ?_, rfl, fun q hq => ?_, ?_⟩
    · refine (congrArg BitVec.toNat (State.reg_setReg_self _ r (BitVec.ofNat 8 k))).trans ?_
      rw [BitVec.toNat_ofNat]
      omega
    · exact (regsSameBut_setReg _ r _ q hq).trans (sameBut_begun s input .V (by decide) q)
    · exact ((((sameBut_begun s input).append (sameBut_setReg _ r _)).append
        (sameBut_wait _ .idle)).append (sameBut_endTick _ _)).mono (by decide)

end

section
/-!
SUPPORT. Runs of several steps: of a core that has ended (60_exceptions.md section 5), and of one that
waits with no key pressed (46_keypad.md R154).
-/

namespace Sys2Proof.Machine

theorem run_succ {s t : State} (h : step s = .next t) (n : Nat) :
    core.run (n + 1) s = core.run n t := by
  simp only [Host.Core.run, show core.step s = .next t from h]

/-- Taking the next event removes at most the first of the queue. -/
theorem mem_of_mem_nextEvent {s : State} {e : HostEvent} (h : e ∈ s.nextEvent.2.events) :
    e ∈ s.events := by
  unfold State.nextEvent at h
  split at h
  case h_1 hnil => exact absurd (hnil ▸ h) List.not_mem_nil
  case h_2 hcons => exact hcons ▸ List.mem_cons_of_mem _ h

/-- The next event is one of the queue, or a Tick. -/
theorem nextEvent_mem_or_tick (s : State) :
    s.nextEvent.1 ∈ s.events ∨ ∃ input, s.nextEvent.1 = .tick input := by
  unfold State.nextEvent
  split
  case h_1 => exact .inr ⟨_, rfl⟩
  case h_2 hcons => exact .inl (hcons ▸ List.mem_cons_self)

/-- RenderAck is not enabled in a terminal state (R143). -/
theorem renderAck_terminal {s : State} (h : s.run ≠ .running) : s.renderAck = s := by
  simp [State.renderAck, State.renderEnabled, h]

/-- One step of a core that has ended, with no Reset in its queue (R82, R178). -/
theorem step_terminal {s : State} (hrun : s.run ≠ .running)
    (hno : ∀ rom font, HostEvent.reset rom font ∉ s.events) :
    ∃ t, step s = .next t ∧ SameBut [.tone, .hostQueue] s t ∧
      ∀ rom font, HostEvent.reset rom font ∉ t.events := by
  have hno' : ∀ rom font, HostEvent.reset rom font ∉ s.nextEvent.2.events :=
    fun rom font hm => hno rom font (mem_of_mem_nextEvent hm)
  have hframe : SameBut [.tone, .hostQueue] s s.nextEvent.2 :=
    (sameBut_nextEvent s).mono (by decide)
  have hrun' : s.nextEvent.2.run ≠ .running := by rwa [nextEvent_run]
  cases he : s.nextEvent.1 with
  | tick input =>
    refine ⟨_, (step_tick he).trans (tick_terminal input hrun'), ?_, hno'⟩
    exact hframe.trans ((sameBut_tone _ false).mono (by decide))
  | renderAck =>
    refine ⟨s.nextEvent.2, ?_, hframe, hno'⟩
    simp only [step, he, deliver, renderAck_terminal hrun']
  | reset rom font =>
    rcases nextEvent_mem_or_tick s with hm | ⟨input, ht⟩
    · exact absurd (he ▸ hm) (hno rom font)
    · cases he.symm.trans ht

/-- One Tick of a waiting core, with no key pressed and the timer step due (R154, R163). -/
theorem step_waiting_due {s : State} {r : Nibble} {b : Byte} {rest : List HostEvent}
    (hrun : s.run = .running) (hwait : s.wait = .awaitingKey r)
    (hevents : s.events = .tick ⟨0, true, b⟩ :: rest) :
    ∃ t, step s = .next t ∧ t.DT.toNat = s.DT.toNat - 1 ∧ t.ST.toNat = s.ST.toNat - 1 ∧
      t.events = rest ∧ SameBut [.K, .rnd, .DT, .ST, .tone, .hostQueue] s t := by
  have hnext := nextEvent_cons hevents
  have hstep := step_waiting hrun hwait (congrArg Prod.fst hnext)
  rw [State.resolveKey_none _ r rfl] at hstep
  have hbegun := sameBut_begun s ⟨0, true, b⟩
  have hruns : (s.nextEvent.2.beginTick ⟨0, true, b⟩).run = .running := (nextEvent_run s).trans hrun
  refine ⟨_, hstep, ?_, ?_, ?_, (hbegun.append (sameBut_endTick _ true)).mono (by decide)⟩
  · exact (endTick_due_DT hruns).trans (by rw [hbegun .DT (by decide)])
  · exact (endTick_due_ST hruns).trans (by rw [hbegun .ST (by decide)])
  · exact congrArg (fun e => e.2.events) hnext

/-- A RenderAck at the head of the queue (R143). -/
theorem step_renderAck {s : State} {rest : List HostEvent} (h : s.events = .renderAck :: rest) :
    step s = .next ({ s with events := rest } : State).renderAck := by
  simp only [step, nextEvent_cons h, deliver]

theorem sameBut_events {s : State} {e : HostEvent} {rest : List HostEvent}
    (h : s.events = e :: rest) : SameBut [.hostQueue] s { s with events := rest } := by
  simpa only [nextEvent_cons h] using sameBut_nextEvent s

theorem renderAck_enabled {s : State} (h : s.renderEnabled = true) :
    s.renderAck = { s with dirty := false, renderCount := s.renderCount + 1 } := if_pos h

theorem renderAck_disabled {s : State} (h : ¬s.renderEnabled = true) : s.renderAck = s := if_neg h

theorem renderEnabled_iff (s : State) :
    s.renderEnabled = true ↔ s.run = .running ∧ s.wait = .idle ∧ s.dirty = true := by
  simp [State.renderEnabled, and_assoc]

end Sys2Proof.Machine
end

section
/-!
PROOF. Runs of several steps, and RenderAck (45_display.md R143).
-/

open Sys2Proof Sys2Proof.Machine

/-- Settles O18: by induction on the number of events; an ended core stays ended, and no Reset comes
into its queue. -/
theorem terminalStateStaysWithoutReset : Obligations.TerminalStateStaysWithoutReset := by
  unfold Obligations.TerminalStateStaysWithoutReset
  intro n s hrun hno
  induction n generalizing s with
  | zero => exact ⟨s, rfl, sameBut_rfl _ s⟩
  | succ n ih =>
    obtain ⟨u, hstep, hframe, hno'⟩ := step_terminal hrun hno
    have hrun' : u.run ≠ .running := by rwa [hframe .RUN (by decide)]
    obtain ⟨t, hrest, hframe'⟩ := ih u hrun' hno'
    exact ⟨t, (run_succ hstep n).trans hrest, hframe.trans hframe'⟩

/-- Settles O21: by induction on the number of Ticks; each takes one off both timers and leaves the
core running and waiting. -/
theorem timersRunDownDuringTheWait : Obligations.TimersRunDownDuringTheWait := by
  unfold Obligations.TimersRunDownDuringTheWait
  intro n s r b rest hrun hwait hevents
  induction n generalizing s with
  | zero => exact ⟨s, rfl, rfl, rfl, hevents, sameBut_rfl _ s⟩
  | succ n ih =>
    obtain ⟨u, hstep, hDT, hST, hqueue, hframe⟩ := step_waiting_due hrun hwait hevents
    have hrun' : u.run = .running := by rw [hframe .RUN (by decide), hrun]
    have hwait' : u.wait = .awaitingKey r := by rw [hframe .WAIT (by decide), hwait]
    obtain ⟨t, hrest, hDT', hST', hqueue', hframe'⟩ := ih u hrun' hwait' hqueue
    refine ⟨t, (run_succ hstep n).trans hrest, ?_, ?_, hqueue', hframe.trans hframe'⟩
    · omega
    · omega

/-- Settles O22: RenderAck by whether it is enabled. -/
theorem renderAckClearsDirtyWhereEnabled : Obligations.RenderAckClearsDirtyWhereEnabled := by
  unfold Obligations.RenderAckClearsDirtyWhereEnabled
  intro s rest hevents
  have hqueue := sameBut_events hevents
  refine ⟨fun hrun hwait hdirty => ?_, fun hnot => ?_⟩
  · have henabled := (renderEnabled_iff { s with events := rest }).mpr ⟨hrun, hwait, hdirty⟩
    refine ⟨_, (step_renderAck hevents).trans (congrArg _ (renderAck_enabled henabled)), rfl, rfl, ?_⟩
    exact ((hqueue.append (sameBut_dirty _ false)).append (sameBut_renderCount _ _)).mono (by decide)
  · have hdisabled : ¬({ s with events := rest } : State).renderEnabled = true := by
      rw [renderEnabled_iff]
      rintro ⟨hrun, hwait, hdirty⟩
      rcases hnot with hne | hne | hclear
      · exact hne hrun
      · exact hne hwait
      · cases hclear.symm.trans hdirty
    exact ⟨_, (step_renderAck hevents).trans (congrArg _ (renderAck_disabled hdisabled)), hqueue⟩

end

section
/-!
SUPPORT. Bytes stored from an address on and registers loaded from it, whole and up to the first byte
that may not be accessed (44_index_memory.md sections 2 and 3, 60_exceptions.md R172).
-/

namespace Sys2Proof.Machine

/-- A range that may be accessed ends within the store (R42). -/
theorem Accessible.end_le {a n : Nat} (h : Accessible a n) (hn : 0 < n) : a + n ≤ 4096 := by
  have := (checkAddress_none _).mp (h (n - 1) (by omega))
  omega

/-- Bytes written where they may be accessed are read back, and every other byte reads as before. -/
theorem read_writeAll_of_accessible {m : Memory} (hwf : m.wf = true) {a : Nat} {vs : List Byte}
    (h : Accessible a vs.length) (b : Nat) :
    (m.writeAll a vs).read b =
      if hb : a ≤ b ∧ b < a + vs.length then vs[b - a]'(by omega) else m.read b := by
  cases vs with
  | nil =>
    rw [dif_neg (by rw [List.length_nil]; omega)]
    rfl
  | cons v vs => exact Memory.read_writeAll hwf a _ (h.end_le (by simp)) b

namespace State

/-- A store whose bytes may all be accessed (R133, R134). -/
theorem storeBytes_stores {s : State} (hwf : s.mem.wf = true) {a : Nat} {vs : List Byte}
    (h : Accessible a vs.length) :
    (∀ k (hk : k < vs.length), (s.storeBytes a vs).mem.read (a + k) = vs[k]) ∧
      MemSameOutside a vs.length s (s.storeBytes a vs) ∧ SameBut [.MEM] s (s.storeBytes a vs) := by
  have hread := read_writeAll_of_accessible hwf h
  rw [storeBytes_ok s a vs h]
  refine ⟨fun k hk => ?_, fun b hb => ?_, sameBut_mem s _ (Memory.writeAll_font _ _ _)⟩
  · refine (hread (a + k)).trans ((dif_pos (by omega)).trans ?_)
    simp only [Nat.add_sub_cancel_left]
  · exact (hread b).trans (dif_neg (by omega))

/-- A store whose byte `k` is the first that may not be accessed: the `k` bytes before it are stored
as they are without a fault, and its trap is raised. -/
theorem storeBytes_stores_then_halts {s : State} (hwf : s.mem.wf = true) {a k : Nat}
    {vs : List Byte} {f : Trap} (hk : k < vs.length) (h : Accessible a k)
    (hf : checkAddress (a + k) = some f) :
    (s.storeBytes a vs).run = .halted f.cause f.info ∧
      (∀ j (hj : j < k), (s.storeBytes a vs).mem.read (a + j) = vs[j]) ∧
      MemSameOutside a k s (s.storeBytes a vs) ∧
      SameBut [.MEM, .RUN] s (s.storeBytes a vs) := by
  have hlen : (vs.take k).length = k := List.length_take_of_le hk.le
  have hacc : Accessible a (vs.take k).length := by rwa [hlen]
  obtain ⟨hread, hsame, -⟩ := storeBytes_stores hwf hacc
  have htrap : s.storeBytes a vs = (s.storeBytes a (vs.take k)).raise f := by
    rw [storeBytes_trap s a vs hk h hf, storeBytes_ok s a _ hacc]
  refine ⟨by rw [htrap, raise_run], fun j hj => ?_, ?_, sameBut_storeBytes s a vs⟩
  · rw [htrap, raise_mem, hread j (by omega), List.getElem_take]
  · rw [hlen] at hsame
    exact fun b hb => by rw [htrap, raise_mem, hsame b hb]

/-- The byte `STM` stores for register `r` (R134). -/
theorem regsUpTo_getElem_reg (s : State) (x r : Nibble) (h : r.toNat < (s.regsUpTo x).length) :
    (s.regsUpTo x)[r.toNat] = s.reg r := by
  rw [regsUpTo_getElem, BitVec.ofNat_toNat, BitVec.setWidth_eq]

/-- A load of the registers below `n` whose bytes may all be accessed (R135). -/
theorem loadRegs_loads {s : State} {n : Nat} (hn : n ≤ 16) (h : Accessible s.dataBase n) :
    (∀ r : Nibble, r.toNat < n →
      (loadRegs s.dataBase n 0 s).reg r = s.mem.read (s.dataBase + r.toNat)) ∧
      (∀ r : Nibble, n ≤ r.toNat → (loadRegs s.dataBase n 0 s).reg r = s.reg r) ∧
      SameBut [.V] s (loadRegs s.dataBase n 0 s) := by
  obtain ⟨V, he, hreg⟩ := loadRegs_ok s.dataBase n 0 s (by omega) h
  rw [he]
  refine ⟨fun r hr => ?_, fun r hr => ?_, sameBut_V s V⟩
  · rw [hreg, if_pos (by omega)]
  · rw [hreg, if_neg (by omega)]

end State

/-! ### The decimal digits of a byte (R133) -/

theorem bcdDigits_hundreds (v : Byte) (h : 0 < (bcdDigits v).length) :
    ((bcdDigits v)[0]).toNat = v.toNat / 100 := by
  have := v.isLt
  simp only [bcdDigits, List.getElem_cons_zero, BitVec.toNat_ofNat]
  omega

theorem bcdDigits_tens (v : Byte) (h : 1 < (bcdDigits v).length) :
    ((bcdDigits v)[1]).toNat = v.toNat / 10 % 10 := by
  simp only [bcdDigits, List.getElem_cons_succ, List.getElem_cons_zero, BitVec.toNat_ofNat]
  omega

theorem bcdDigits_units (v : Byte) (h : 2 < (bcdDigits v).length) :
    ((bcdDigits v)[2]).toNat = v.toNat % 10 := by
  simp only [bcdDigits, List.getElem_cons_succ, List.getElem_cons_zero, BitVec.toNat_ofNat]
  omega

end Sys2Proof.Machine
end

section
/-!
PROOF. `BCD`, `STM` and `LDM` (44_index_memory.md sections 2 and 3, 60_exceptions.md section 2).
-/

open Sys2Proof Sys2Proof.Machine

/-- Settles O47: a store of the three digits. -/
theorem bcdStoresThreeDigits : Obligations.BcdStoresThreeDigits := by
  unfold Obligations.BcdStoresThreeDigits
  intro x s hwf hacc
  obtain ⟨hread, houtside, hframe⟩ := State.storeBytes_stores (vs := bcdDigits (s.reg x)) hwf hacc
  refine ⟨_, exec_bcd x s, ?_, ?_, ?_, houtside, hframe⟩
  · exact (congrArg BitVec.toNat (hread 0 (by decide : 0 < 3))).trans (bcdDigits_hundreds _ _)
  · exact (congrArg BitVec.toNat (hread 1 (by decide : 1 < 3))).trans (bcdDigits_tens _ _)
  · exact (congrArg BitVec.toNat (hread 2 (by decide : 2 < 3))).trans (bcdDigits_units _ _)

/-- Settles O48: a store of the registers up to x. -/
theorem stmStoresTheRegisters : Obligations.StmStoresTheRegisters := by
  unfold Obligations.StmStoresTheRegisters
  intro x s hwf hacc
  obtain ⟨hread, houtside, hframe⟩ :=
    State.storeBytes_stores (vs := s.regsUpTo x) hwf (by rwa [State.regsUpTo_length])
  rw [State.regsUpTo_length] at houtside
  refine ⟨_, exec_stm x s, fun r hr => ?_, houtside, hframe⟩
  have hlen : r.toNat < (s.regsUpTo x).length := by
    rw [State.regsUpTo_length]
    omega
  rw [hread r.toNat hlen, State.regsUpTo_getElem_reg]

/-- Settles O49: a load of the registers below x + 1. -/
theorem ldmLoadsTheRegisters : Obligations.LdmLoadsTheRegisters := by
  unfold Obligations.LdmLoadsTheRegisters
  intro x s hacc
  obtain ⟨hloaded, hkept, hframe⟩ := State.loadRegs_loads (by omega) hacc
  exact ⟨_, exec_ldm x s, fun r hr => hloaded r (by omega), fun r hr => hkept r (by omega), hframe⟩

/-- Settles O50: a store of the digits, or of the registers, that halts at byte k. -/
theorem storeFaultKeepsTheBytesStored : Obligations.StoreFaultKeepsTheBytesStored := by
  unfold Obligations.StoreFaultKeepsTheBytesStored
  refine ⟨fun x k s f hwf hk hacc hf => ?_, fun x k s f hwf hacc hf => ?_⟩
  · have hlen : k.toNat < (s.regsUpTo x).length := by
      rw [State.regsUpTo_length]
      omega
    obtain ⟨hrun, hread, houtside, hframe⟩ :=
      State.storeBytes_stores_then_halts hwf hlen hacc hf
    refine ⟨_, exec_stm x s, hrun, fun r hr => ?_, houtside, hframe⟩
    rw [hread r.toNat hr, State.regsUpTo_getElem_reg]
  · obtain ⟨hrun, hread, houtside, hframe⟩ :=
      State.storeBytes_stores_then_halts (vs := bcdDigits (s.reg x)) hwf k.isLt hacc hf
    refine ⟨_, exec_bcd x s, hrun, fun h0 => ?_, fun h1 => ?_, houtside, hframe⟩
    · exact (congrArg BitVec.toNat (hread 0 h0)).trans (bcdDigits_hundreds _ _)
    · exact (congrArg BitVec.toNat (hread 1 h1)).trans (bcdDigits_tens _ _)

/-- Settles O51: a load of the registers below k, then the trap of byte k. -/
theorem ldmFaultKeepsTheRegistersLoaded : Obligations.LdmFaultKeepsTheRegistersLoaded := by
  unfold Obligations.LdmFaultKeepsTheRegistersLoaded
  intro x k s f hk hacc hf
  obtain ⟨hloaded, hkept, hframe⟩ := State.loadRegs_loads k.isLt.le hacc
  have hexec : exec (.ldm x) s = .next ((State.loadRegs s.dataBase k.toNat 0 s).raise f) := by
    rw [exec_ldm, State.loadRegs_trap s.dataBase (x.toNat + 1) 0 s (by omega) hacc hf]
  exact ⟨_, hexec, rfl, hloaded, hkept, hframe.append (sameBut_raise _ f)⟩

end

section
/-!
SUPPORT. The end of a blit part by part, and the draw whose rows may all be read (45_display.md R141).
-/

namespace Sys2Proof.Machine

namespace State

@[simp] theorem endBlit_fb (s : State) (coll changed : Bool) :
    (s.endBlit coll changed).fb = s.fb := by
  cases coll <;> rfl

@[simp] theorem endBlit_dirty (s : State) (coll changed : Bool) :
    (s.endBlit coll changed).dirty = (s.dirty || changed) := by
  rw [endBlit_eq]

theorem endBlit_regF_collided (s : State) (changed : Bool) :
    (s.endBlit true changed).reg regF = 1 :=
  reg_setReg_self s regF 1

theorem endBlit_regF_clear (s : State) (changed : Bool) :
    (s.endBlit false changed).reg regF = s.reg regF := rfl

end State

theorem regsSameBut_endBlit (s : State) (coll changed : Bool) :
    RegsSameBut [regF] s (s.endBlit coll changed) := by
  cases coll
  · exact fun _ _ => rfl
  · exact regsSameBut_setReg s regF 1

theorem sameBut_endBlit (s : State) (coll changed : Bool) :
    SameBut [.V, .DIRTY] s (s.endBlit coll changed) := by
  cases coll
  · exact (sameBut_dirty s _).mono (by decide)
  · exact (sameBut_setReg s regF 1).append (sameBut_dirty _ _)

theorem RegsSameBut.trans {rs : List Nibble} {s t u : State} (h : RegsSameBut rs s t)
    (h' : RegsSameBut rs t u) : RegsSameBut rs s u :=
  fun r hr => (h' r hr).trans (h r hr)

/-- The sprite is read from memory byte by byte. -/
theorem spriteHits_congr {m m' : Memory} (h : ∀ a, m'.read a = m.read a) (base : Nat)
    (vx vy : Byte) (count r : Nat) :
    spriteHits m' base vx vy count r = spriteHits m base vx vy count r := by
  funext row col
  simp only [spriteHits, h]

end Sys2Proof.Machine
end

section
/-!
PROOF. `DRW` (45_display.md sections on R141 and R142, 60_exceptions.md section 2).
-/

open Sys2Proof Sys2Proof.Machine

/-- Settles O53: the blit in closed form, over the state with VF cleared; its two flags say whether a
hit cell was 1 and whether a cell was hit. -/
theorem drwTogglesTheSpritesCells : Obligations.DrwTogglesTheSpritesCells := by
  unfold Obligations.DrwTogglesTheSpritesCells
  intro x y n s hacc hits
  obtain ⟨fb, coll, changed, hdraw, hcells, hcoll, hchanged⟩ :=
    State.drawRows_ok (s.reg x) (s.reg y) n.toNat 0 false false (s.setReg regF 0)
      (by have := n.isLt; omega) hacc
  simp only [Bool.false_eq_true, false_or] at hcoll hchanged
  refine ⟨_, (exec_drw x y n s).trans (congrArg _ hdraw), fun row col => ?_, fun hone => ?_,
    fun hnone => ?_, fun hhit => ?_, fun hmiss => ?_, ?_, ?_⟩
  · rw [State.endBlit_fb]
    exact hcells row col
  · have hset : coll = true := hcoll.mpr hone
    subst hset
    exact State.endBlit_regF_collided _ changed
  · have hclear : coll = false := by
      rw [← Bool.not_eq_true, hcoll]
      rintro ⟨row, col, hhit, hcell⟩
      cases (hnone row col hhit).symm.trans hcell
    subst hclear
    exact (State.endBlit_regF_clear _ changed).trans (State.reg_setReg_self s regF 0)
  · rw [State.endBlit_dirty, hchanged.mpr hhit, Bool.or_true]
  · have hquiet : changed = false := by
      rw [← Bool.not_eq_true, hchanged]
      rintro ⟨row, col, hhit⟩
      cases (hmiss row col).symm.trans hhit
    rw [State.endBlit_dirty, hquiet, Bool.or_false]
    rfl
  · exact (regsSameBut_setReg s regF 0).trans (regsSameBut_endBlit _ coll changed)
  · exact (((sameBut_setReg s regF 0).append (sameBut_fb _ fb)).append
      (sameBut_endBlit _ coll changed)).mono (by decide)

/-- Settles O54: the rows before the trap in closed form; the end of a blit is not reached. -/
theorem drwFaultKeepsTheRowsDrawn : Obligations.DrwFaultKeepsTheRowsDrawn := by
  unfold Obligations.DrwFaultKeepsTheRowsDrawn
  intro x y n k s f hk hacc hf
  obtain ⟨fb, hdraw, hcells⟩ :=
    State.drawRows_trap (s.reg x) (s.reg y) n.toNat 0 false false (s.setReg regF 0) hk
      (by have := k.isLt; omega) hacc hf
  refine ⟨_, (exec_drw x y n s).trans (congrArg _ hdraw), rfl, State.reg_setReg_self s regF 0,
    hcells, regsSameBut_setReg s regF 0, ?_⟩
  exact ((sameBut_setReg s regF 0).append (sameBut_fb _ fb)).append (sameBut_raise _ f)

/-- Settles O55: the second draw reads the first one's sprite and coordinates, so it toggles the same
cells back; a hit cell is 1 before it exactly where it was 0 at first. -/
theorem drawingTwiceRestoresTheFramebuffer : Obligations.DrawingTwiceRestoresTheFramebuffer := by
  unfold Obligations.DrawingTwiceRestoresTheFramebuffer
  intro x y n s hx hy hacc
  obtain ⟨t, hexec, hcells, -, -, -, -, hregs, hframe⟩ := drwTogglesTheSpritesCells x y n s hacc
  have hbase : t.dataBase = s.dataBase := congrArg BitVec.toNat (hframe .I (by decide))
  obtain ⟨u, hexec', hcells', hone, hnone, -⟩ :=
    drwTogglesTheSpritesCells x y n t (by rwa [hbase])
  have hhits : spriteHits t.mem t.dataBase (t.reg x) (t.reg y) n.toNat 0 =
      spriteHits s.mem s.dataBase (s.reg x) (s.reg y) n.toNat 0 := by
    rw [hbase, hregs x (by simpa using hx), hregs y (by simpa using hy),
      spriteHits_congr (hframe .MEM (by decide))]
  simp only [hhits, hcells] at hcells' hone hnone
  refine ⟨t, u, hexec, hexec', fun row col => ?_, fun ⟨row, col, hhit, hclear⟩ => ?_,
    fun hset => ?_⟩
  · rw [hcells', Bool.xor_assoc, Bool.xor_self, Bool.xor_false]
  · exact hone ⟨row, col, hhit, by rw [hhit, hclear]; rfl⟩
  · exact hnone fun row col hhit => by rw [hhit, hset row col hhit]; rfl

end

section
/-!
SUPPORT. What a next state of an instruction is like: its registers, its RUN, its DIRTY and
framebuffer (10_state.md sections 1 to 3 and 6, 60_exceptions.md section 4).
-/

namespace Sys2Proof.Machine

theorem exec_regsSameBut_ldm (x : Nibble) (s : State) :
    RegsSameBut (destsOf (.ldm x)) s (State.loadRegs s.dataBase (x.toNat + 1) 0 s) := by
  obtain ⟨V, r, he, hregs, -⟩ := State.loadRegs_cases s.dataBase (x.toNat + 1) 0 s
  rw [he]
  refine fun q hq => hregs q (.inr ?_) (by omega)
  by_contra hlow
  refine hq (List.mem_map.mpr ⟨q.toNat, List.mem_range.mpr (by omega), ?_⟩)
  rw [BitVec.ofNat_toNat, BitVec.setWidth_eq]

theorem exec_regsSameBut_drw (x y n : Nibble) (s : State) :
    RegsSameBut [regF] s
      (State.drawRows (s.reg x) (s.reg y) n.toNat 0 false false (s.setReg regF 0)) := by
  obtain ⟨V, fb, d, q, he, hregs, -, -⟩ :=
    State.drawRows_cases (s.reg x) (s.reg y) n.toNat 0 false false (s.setReg regF 0)
  rw [he]
  refine (regsSameBut_setReg s regF 0).trans fun r hr => hregs r ?_
  simpa using hr

/-- An instruction writes no register but its destinations (R10, R11). -/
theorem exec_regsSameBut {i : Instr} {s t : State} (h : exec i s = .next t) :
    RegsSameBut (destsOf i) s t := by
  cases i with
  | ldi | addi | mov | or | and | xor | rnd | lddt => cases h; exact regsSameBut_setReg s _ _
  | add | sub | shr | subn | shl => cases h; exact regsSameBut_writeFlagThenResult s _ _ _
  | drw x y n => cases h; exact exec_regsSameBut_drw x y n s
  | ldm x => cases h; exact exec_regsSameBut_ldm x s
  | _ => exact fun r _ => exec_sameBut h .V (by simp [partsOf]) r

/-- RUN is as before, or a checked access trapped (R42, R171). -/
def KeepsRunOrTraps (s t : State) : Prop :=
  t.run = s.run ∨ ∃ a f, checkAddress a = some f ∧ t.run = .halted f.cause f.info

theorem keepsRunOrTraps_storeBytes (s : State) (a : Nat) (vs : List Byte) :
    KeepsRunOrTraps s (s.storeBytes a vs) := by
  rcases accessible_or_first a vs.length with hacc | ⟨k, f, hk, hacc, hf⟩
  · exact .inl (by rw [State.storeBytes_ok s a vs hacc])
  · exact .inr ⟨_, f, hf, by rw [State.storeBytes_trap s a vs hk hacc hf, State.raise_run]⟩

theorem keepsRunOrTraps_ldm (x : Nibble) (s : State) :
    KeepsRunOrTraps s (State.loadRegs s.dataBase (x.toNat + 1) 0 s) := by
  rcases accessible_or_first s.dataBase (x.toNat + 1) with hacc | ⟨k, f, hk, hacc, hf⟩
  · obtain ⟨-, -, hframe⟩ := State.loadRegs_loads (by omega) hacc
    exact .inl (hframe .RUN (by decide))
  · exact .inr ⟨_, f, hf, by rw [State.loadRegs_trap s.dataBase _ 0 s hk hacc hf, State.raise_run]⟩

/-- The two outcomes of a draw: a whole blit, or a trap at some row (R141, R172). -/
theorem drw_cases (x y n : Nibble) (s : State) :
    Accessible s.dataBase n.toNat ∨ ∃ u a f, checkAddress a = some f ∧
      State.drawRows (s.reg x) (s.reg y) n.toNat 0 false false (s.setReg regF 0) =
        State.raise u f := by
  rcases accessible_or_first s.dataBase n.toNat with hacc | ⟨k, f, hk, hacc, hf⟩
  · exact .inl hacc
  · obtain ⟨fb, hdraw, -⟩ := State.drawRows_trap (s.reg x) (s.reg y) n.toNat 0 false false
      (s.setReg regF 0) hk (by omega) hacc hf
    exact .inr ⟨_, _, f, hf, hdraw⟩

theorem keepsRunOrTraps_drw (x y n : Nibble) (s : State) :
    KeepsRunOrTraps s
      (State.drawRows (s.reg x) (s.reg y) n.toNat 0 false false (s.setReg regF 0)) := by
  rcases drw_cases x y n s with hacc | ⟨u, a, f, hf, hdraw⟩
  · obtain ⟨fb, coll, changed, hdraw, -⟩ := State.drawRows_ok (s.reg x) (s.reg y) n.toNat 0 false
      false (s.setReg regF 0) (by omega) hacc
    rw [hdraw]
    exact .inl (sameBut_endBlit _ coll changed .RUN (by decide))
  · exact .inr ⟨a, f, hf, by rw [hdraw, State.raise_run]⟩

/-- The instructions that read or write data at `I` (R137, R141). -/
def AccessesData (i : Instr) : Prop :=
  (∃ x y n, i = .drw x y n) ∨ ∃ x, i = .bcd x ∨ i = .stm x ∨ i = .ldm x

/-- The statuses an instruction can end the run with (the table of R175; R92 for the self-jump). -/
inductive EndsRun : Instr → RunStatus → Prop where
  | selfJump (nnn : Addr) : EndsRun (.jmp nnn) .finished
  | emptyStack : EndsRun .ret (.halted .stackUnderflow 0)
  | fullStack (nnn : Addr) : EndsRun (.call nnn) (.halted .stackOverflow 16)
  | keyIndex {i : Instr} {x : Nibble} (hi : i = .skp x ∨ i = .sknp x) (info : Word) :
      EndsRun i (.halted .invalidKeyIndex info)
  | access {i : Instr} {a : Nat} {f : Trap} (hi : AccessesData i) (hf : checkAddress a = some f) :
      EndsRun i (.halted f.cause f.info)

/-- An instruction that ends the run by a checked access. -/
theorem KeepsRunOrTraps.endsRun {i : Instr} {s t : State} (h : KeepsRunOrTraps s t)
    (hi : AccessesData i) : t.run = s.run ∨ EndsRun i t.run :=
  h.imp_right fun ⟨_, _, hf, hr⟩ => hr ▸ .access hi hf

/-- The access check has two causes (R42). -/
theorem cause_of_checkAddress {a : Nat} {f : Trap} (h : checkAddress a = some f) :
    f.cause = .outOfBoundsAccess ∨ f.cause = .reservedRegionAccess := by
  rcases checkAddress_cases a with ⟨-, hc⟩ | ⟨-, hc⟩ | ⟨-, hc⟩
  · cases h.symm.trans hc
    exact .inl rfl
  · cases h.symm.trans hc
    exact .inr rfl
  · cases h.symm.trans hc

theorem exec_ret_run {s t : State} (h : exec .ret s = .next t) :
    t.run = s.run ∨ EndsRun .ret t.run := by
  rcases sp_cases s with hsp | ⟨j, hsp⟩
  · cases h.symm.trans (exec_ret_empty s hsp)
    exact .inr .emptyStack
  · cases h.symm.trans (exec_ret_live s j hsp)
    exact .inl rfl

theorem exec_jmp_run {nnn : Addr} {s t : State} (h : exec (.jmp nnn) s = .next t) :
    t.run = s.run ∨ EndsRun (.jmp nnn) t.run := by
  cases h.symm.trans (exec_jmp nnn s)
  simp only
  split
  · exact .inr (.selfJump nnn)
  · exact .inl rfl

theorem exec_call_run {nnn : Addr} {s t : State} (h : exec (.call nnn) s = .next t) :
    t.run = s.run ∨ EndsRun (.call nnn) t.run := by
  by_cases hsp : s.sp.val < 16
  · cases h.symm.trans (exec_call_room nnn s hsp)
    exact .inl rfl
  · cases h.symm.trans (exec_call_full nnn s (by omega))
    exact .inr (.fullStack nnn)

theorem exec_keySkip_run {i : Instr} {x : Nibble} (hi : i = .skp x ∨ i = .sknp x) {s t : State}
    (h : exec i s = .next t) : t.run = s.run ∨ EndsRun i t.run := by
  rcases exec_keySkip_cases hi s with ⟨c, hexec⟩ | ⟨-, hexec⟩
  · cases h.symm.trans hexec
    exact .inl (sameBut_skipIf s c .RUN (by decide))
  · cases h.symm.trans hexec
    exact .inr (.keyIndex hi _)

/-- RUN after an instruction. -/
theorem exec_run {i : Instr} {s t : State} (h : exec i s = .next t) :
    t.run = s.run ∨ EndsRun i t.run := by
  cases i with
  | ret => exact exec_ret_run h
  | jmp => exact exec_jmp_run h
  | call => exact exec_call_run h
  | skp => exact exec_keySkip_run (.inl rfl) h
  | sknp => exact exec_keySkip_run (.inr rfl) h
  | drw x y n => cases h; exact (keepsRunOrTraps_drw x y n s).endsRun (.inl ⟨x, y, n, rfl⟩)
  | bcd x => cases h; exact (keepsRunOrTraps_storeBytes s _ _).endsRun (.inr ⟨x, .inl rfl⟩)
  | stm x => cases h; exact (keepsRunOrTraps_storeBytes s _ _).endsRun (.inr ⟨x, .inr (.inl rfl)⟩)
  | ldm x => cases h; exact (keepsRunOrTraps_ldm x s).endsRun (.inr ⟨x, .inr (.inr rfl)⟩)
  | _ => exact .inl (exec_sameBut h .RUN (by simp [partsOf]))

/-- No instruction clears DIRTY (R19). -/
theorem exec_keeps_dirty {i : Instr} {s t : State} (h : exec i s = .next t)
    (hdirty : s.dirty = true) : t.dirty = true := by
  cases i with
  | cls =>
    cases h
    rw [State.clearScreen_dirty, hdirty, Bool.true_or]
  | drw x y n =>
    obtain ⟨V, fb, d, q, he, -, hd, -⟩ :=
      State.drawRows_cases (s.reg x) (s.reg y) n.toNat 0 false false (s.setReg regF 0)
    rw [exec_drw, he] at h
    cases h
    exact hd hdirty
  | _ => rw [exec_sameBut h .DIRTY (by simp [partsOf]), hdirty]

/-- `CLS` changes a cell only where some cell was 1 (R140). -/
theorem clearScreen_changed_fb {s : State} (hfb : ¬Agrees s s.clearScreen .FB) :
    s.clearScreen.dirty = true := by
  rw [State.clearScreen_dirty, Bool.or_eq_true]
  right
  by_contra hnone
  rw [Bool.not_eq_true, Framebuffer.anySet_eq_false_iff] at hnone
  exact hfb fun row col => (Framebuffer.cell_blank row col).trans (hnone row col).symm

/-- A draw changes a cell only where its sprite hits one, or where it halts (R141, R172). -/
theorem exec_drw_changed_fb {x y n : Nibble} {s t : State} (h : exec (.drw x y n) s = .next t)
    (hfb : ¬Agrees s t .FB) : t.dirty = true ∨ ∃ c info, t.run = .halted c info := by
  rcases drw_cases x y n s with hacc | ⟨u, a, f, -, hdraw⟩
  · obtain ⟨t', ht', hcells, -, -, hhit, -⟩ := drwTogglesTheSpritesCells x y n s hacc
    cases h.symm.trans ht'
    refine .inl (hhit ?_)
    by_contra hmiss
    simp only [not_exists, Bool.not_eq_true] at hmiss
    exact hfb fun row col => by rw [hcells, hmiss row col, Bool.xor_false]
  · rw [exec_drw, hdraw] at h
    cases h
    exact .inr ⟨_, _, State.raise_run u f⟩

/-- An instruction that changes a cell sets DIRTY, or halts the core. -/
theorem exec_changed_fb {i : Instr} {s t : State} (h : exec i s = .next t)
    (hfb : ¬Agrees s t .FB) : t.dirty = true ∨ ∃ c info, t.run = .halted c info := by
  cases i with
  | cls => cases h; exact .inl (clearScreen_changed_fb hfb)
  | drw => exact exec_drw_changed_fb h hfb
  | _ => exact absurd (exec_sameBut h .FB (by simp [partsOf])) hfb

/-- Only `WAITK` of that register enters a wait (R152). -/
theorem exec_enters_wait {i : Instr} {s t : State} {r : Nibble} (h : exec i s = .next t)
    (hidle : s.wait = .idle) (hwait : t.wait = .awaitingKey r) : i = .waitk r := by
  cases i with
  | waitk x =>
    cases h
    cases hwait
    rfl
  | _ =>
    rw [exec_sameBut h .WAIT (by simp [partsOf]), hidle] at hwait
    cases hwait

/-- `PeekWord` gives the word that a read would give (R56). -/
theorem State.peekWord_eq_some_iff (s : State) (a : Nat) (w : Word) :
    s.peekWord a = some w ↔ s.memReadWord a = .ok w := by
  unfold peekWord
  cases s.memReadWord a with
  | error f => simp
  | ok v => simp

end Sys2Proof.Machine
end

section
/-!
PROOF. The parts and the faults of every instruction (10_state.md sections 1 to 3, 60_exceptions.md
section 4).
-/

open Sys2Proof Sys2Proof.Machine

/-- Settles O27: the frame of every instruction, by parts and by registers. -/
theorem instructionWritesOnlyItsOwnParts : Obligations.InstructionWritesOnlyItsOwnParts := by
  unfold Obligations.InstructionWritesOnlyItsOwnParts
  intro i s
  obtain ⟨t, hexec, hframe⟩ := exec_writesOnly i s
  exact ⟨t, hexec, hframe, exec_regsSameBut hexec⟩

/-- Settles O28: by the statuses an instruction can end the run with; a failing access check has one
of two causes. -/
theorem faultsByInstruction : Obligations.FaultsByInstruction := by
  unfold Obligations.FaultsByInstruction
  intro i s t hrun hexec
  rcases exec_run hexec with hsame | hends
  · rw [hsame, hrun]
    trivial
  · generalize t.run = r at hends
    cases hends with
    | selfJump nnn => exact ⟨nnn, rfl⟩
    | emptyStack => rfl
    | fullStack nnn => exact ⟨nnn, rfl⟩
    | keyIndex hi => exact ⟨_, hi⟩
    | access hi hf =>
      rcases cause_of_checkAddress hf with hc | hc
      · rw [hc]
        exact hi
      · rw [hc]
        exact hi

end

section
/-!
SUPPORT. The inputs of the Tick (10_state.md sections 6 and 8): an instruction that does not name the
random byte or the keys runs alike whatever they are.
-/

namespace Sys2Proof.Machine

namespace State

/-- The state with other Tick inputs held (R83). -/
def withInputs (s : State) (k : BitVec 16) (b : Byte) : State := { s with keys := k, rnd := b }

theorem withInputs_keys (s : State) (k : BitVec 16) : { s with keys := k } = s.withInputs k s.rnd :=
  rfl

theorem withInputs_rnd (s : State) (b : Byte) : { s with rnd := b } = s.withInputs s.keys b := rfl

theorem storeBytes_withInputs (k : BitVec 16) (b : Byte) (vs : List Byte) (s : State) (a : Nat) :
    (s.withInputs k b).storeBytes a vs = (s.storeBytes a vs).withInputs k b := by
  induction vs generalizing s a with
  | nil => rfl
  | cons v vs ih =>
    cases hc : checkAddress a with
    | some f => simp only [storeBytes, memWrite_trap _ v hc]; rfl
    | none =>
      simp only [storeBytes, memWrite_ok _ v hc]
      exact ih { s with mem := s.mem.write a v } (a + 1)

theorem loadRegs_withInputs (k : BitVec 16) (b : Byte) (base count i : Nat) (s : State) :
    loadRegs base count i (s.withInputs k b) = (loadRegs base count i s).withInputs k b := by
  induction count generalizing i s with
  | zero => rfl
  | succ n ih =>
    cases hc : checkAddress (base + i) with
    | some f => simp only [loadRegs, memRead_trap _ hc]; rfl
    | none =>
      simp only [loadRegs, memRead_ok _ hc]
      exact ih (i + 1) (s.setReg (BitVec.ofNat 4 i) (s.mem.read (base + i)))

theorem drawRows_withInputs (k : BitVec 16) (b : Byte) (vx vy : Byte) (count r : Nat)
    (coll changed : Bool) (s : State) :
    drawRows vx vy count r coll changed (s.withInputs k b) =
      (drawRows vx vy count r coll changed s).withInputs k b := by
  induction count generalizing r coll changed s with
  | zero => cases coll <;> rfl
  | succ n ih =>
    have hbase : (s.withInputs k b).dataBase = s.dataBase := rfl
    cases hc : checkAddress (s.dataBase + r) with
    | some f => simp only [drawRows, hbase, memRead_trap _ hc]; rfl
    | none =>
      simp only [drawRows, hbase, memRead_ok _ hc]
      generalize hdrawn : Blit.drawRow ⟨s.fb, coll, changed⟩ (s.mem.read (s.dataBase + r)) vx
        (wrapRow vy r) = d
      simp only [withInputs, hdrawn]
      exact ih (r + 1) d.coll d.changed { s with fb := d.fb }

theorem skipIf_withInputs (k : BitVec 16) (b : Byte) (s : State) (c : Bool) :
    (s.withInputs k b).skipIf c = (s.skipIf c).withInputs k b := by
  cases c <;> rfl

end State

theorem exec_ret_withInputs (s : State) (k : BitVec 16) (b : Byte) :
    exec .ret (s.withInputs k b) = onNext (exec .ret s) (fun t => t.withInputs k b) := by
  rcases sp_cases s with hsp | ⟨j, hsp⟩
  · rw [exec_ret_empty s hsp, exec_ret_empty (s.withInputs k b) hsp]
    rfl
  · rw [exec_ret_live s j hsp, exec_ret_live (s.withInputs k b) j hsp]
    rfl

theorem exec_call_withInputs (nnn : Addr) (s : State) (k : BitVec 16) (b : Byte) :
    exec (.call nnn) (s.withInputs k b) =
      onNext (exec (.call nnn) s) (fun t => t.withInputs k b) := by
  by_cases hsp : s.sp.val < 16
  · rw [exec_call_room nnn s hsp, exec_call_room nnn (s.withInputs k b) hsp]
    rfl
  · have hfull : s.sp.val = 16 := by omega
    rw [exec_call_full nnn s hfull, exec_call_full nnn (s.withInputs k b) hfull]
    rfl

/-- An instruction that names neither input runs alike under other inputs. -/
theorem exec_withInputs {i : Instr} (hrnd : ∀ x kk, i ≠ .rnd x kk) (hskp : ∀ x, i ≠ .skp x)
    (hsknp : ∀ x, i ≠ .sknp x) (s : State) (k : BitVec 16) (b : Byte) :
    exec i (s.withInputs k b) = onNext (exec i s) (fun t => t.withInputs k b) := by
  cases i with
  | rnd x kk => exact absurd rfl (hrnd x kk)
  | skp x => exact absurd rfl (hskp x)
  | sknp x => exact absurd rfl (hsknp x)
  | ret => exact exec_ret_withInputs s k b
  | call nnn => exact exec_call_withInputs nnn s k b
  | bcd | stm => exact congrArg _ (State.storeBytes_withInputs k b _ s _)
  | ldm x => exact congrArg _ (State.loadRegs_withInputs k b _ _ _ s)
  | drw x y n => exact congrArg _ (State.drawRows_withInputs k b _ _ _ _ _ _ (s.setReg regF 0))
  | sei | snei | ser | sner => exact congrArg _ (State.skipIf_withInputs k b s _)
  | _ => rfl

/-- The key skips do not name the random byte (R150, R151). -/
theorem exec_skp_withRnd (x : Nibble) (s : State) (b : Byte) :
    exec (.skp x) (s.withInputs s.keys b) =
      onNext (exec (.skp x) s) (fun t => t.withInputs s.keys b) := by
  by_cases hx : (s.reg x).toNat < 16
  · rw [exec_skp_key x s hx, exec_skp_key x (s.withInputs s.keys b) hx]
    exact congrArg _ (State.skipIf_withInputs s.keys b s _)
  · rw [exec_skp_trap x s (by omega), exec_skp_trap x (s.withInputs s.keys b) (Nat.not_lt.mp hx)]
    rfl

theorem exec_sknp_withRnd (x : Nibble) (s : State) (b : Byte) :
    exec (.sknp x) (s.withInputs s.keys b) =
      onNext (exec (.sknp x) s) (fun t => t.withInputs s.keys b) := by
  by_cases hx : (s.reg x).toNat < 16
  · rw [exec_sknp_key x s hx, exec_sknp_key x (s.withInputs s.keys b) hx]
    exact congrArg _ (State.skipIf_withInputs s.keys b s _)
  · rw [exec_sknp_trap x s (by omega), exec_sknp_trap x (s.withInputs s.keys b) (Nat.not_lt.mp hx)]
    rfl

/-- An instruction but `RND` runs alike under another random byte. -/
theorem exec_withRnd {i : Instr} (hrnd : ∀ x kk, i ≠ .rnd x kk) (s : State) (b : Byte) :
    exec i (s.withInputs s.keys b) = onNext (exec i s) (fun t => t.withInputs s.keys b) := by
  by_cases hskp : ∃ x, i = .skp x
  · obtain ⟨x, rfl⟩ := hskp
    exact exec_skp_withRnd x s b
  · by_cases hsknp : ∃ x, i = .sknp x
    · obtain ⟨x, rfl⟩ := hsknp
      exact exec_sknp_withRnd x s b
    · exact exec_withInputs hrnd (not_exists.mp hskp) (not_exists.mp hsknp) s s.keys b

/-- An instruction but the key skips runs alike under other keys. -/
theorem exec_withKeys {i : Instr} (hskp : ∀ x, i ≠ .skp x) (hsknp : ∀ x, i ≠ .sknp x) (s : State)
    (k : BitVec 16) :
    exec i (s.withInputs k s.rnd) = onNext (exec i s) (fun t => t.withInputs k s.rnd) := by
  by_cases hrnd : ∃ x kk, i = .rnd x kk
  · obtain ⟨x, kk, rfl⟩ := hrnd
    rfl
  · exact exec_withInputs (fun x kk h => hrnd ⟨x, kk, h⟩) hskp hsknp s k s.rnd

/-- No instruction writes the inputs of its Tick (R20, R25). -/
theorem exec_keeps_inputs {i : Instr} {s t : State} (h : exec i s = .next t) :
    t.keys = s.keys ∧ t.rnd = s.rnd := by
  have hK : .K ∉ partsOf i := by cases i <;> simp [partsOf]
  have hrnd : .rnd ∉ partsOf i := by cases i <;> simp [partsOf]
  exact ⟨exec_sameBut h .K hK, exec_sameBut h .rnd hrnd⟩

end Sys2Proof.Machine
end

section
/-!
PROOF. What the inputs of a Tick reach (10_state.md sections 6 and 8).
-/

open Sys2Proof Sys2Proof.Machine

/-- Settles O29: the instruction runs alike under the other byte, and keeps the keys it was given. -/
theorem randomByteReachesOnlyRnd : Obligations.RandomByteReachesOnlyRnd := by
  unfold Obligations.RandomByteReachesOnlyRnd
  intro i s b hrnd
  obtain ⟨t, hexec, -⟩ := exec_writesOnly i s
  rw [State.withInputs_rnd, exec_withRnd hrnd, hexec, ← (exec_keeps_inputs hexec).1]
  rfl

/-- Settles O30: the instruction runs alike under the other keys, and keeps the byte it was given. -/
theorem keysReachOnlyKeySkips : Obligations.KeysReachOnlyKeySkips := by
  unfold Obligations.KeysReachOnlyKeySkips
  intro i s k hskp hsknp
  obtain ⟨t, hexec, -⟩ := exec_writesOnly i s
  rw [State.withInputs_keys, exec_withKeys hskp hsknp, hexec, ← (exec_keeps_inputs hexec).2]
  rfl

end

section
/-!
SUPPORT. A step seen from outside (10_state.md section 6, 60_exceptions.md section 5): it runs no
instruction, or one instruction, or it is a RenderAck or a Reset.
-/

namespace Sys2Proof.Machine

/-- What a Tick that runs no instruction leaves alone: the display, DIRTY among them, is not touched,
no wait is entered, and RUN is kept or halted. -/
structure RunsNothing (s t : State) : Prop where
  frame : SameBut [.V, .pc, .DT, .ST, .K, .WAIT, .RUN, .rnd, .tone, .instrCount, .hostQueue] s t
  wait : t.wait = s.wait ∨ t.wait = .idle
  run : t.run = s.run ∨ ∃ c info, t.run = .halted c info

theorem runsNothing_terminal (s : State) :
    RunsNothing s { s.nextEvent.2 with tone := false } where
  frame := ((sameBut_nextEvent s).append (sameBut_tone _ false)).mono (by decide)
  wait := .inl (nextEvent_wait s)
  run := .inl (nextEvent_run s)

theorem runsNothing_waiting (s : State) (input : TickInput) (r : Nibble) (due : Bool) :
    RunsNothing s (((s.nextEvent.2.beginTick input).resolveKey r).endTick due) where
  frame := (((sameBut_begun s input).append (sameBut_resolveKey _ r)).append
    (sameBut_endTick _ due)).mono (by decide)
  wait := by
    rw [State.endTick_wait, State.resolveKey]
    split
    · exact .inr rfl
    · exact .inl (nextEvent_wait s)
  run := by
    left
    rw [State.endTick_run, sameBut_resolveKey _ r .RUN (by decide)]
    exact nextEvent_run s

theorem runsNothing_fetchFault (s : State) (input : TickInput) (f : Trap) (due : Bool) :
    RunsNothing s (((s.nextEvent.2.beginTick input).raise f).endTick due) where
  frame := (((sameBut_begun s input).append (sameBut_raise _ f)).append
    (sameBut_endTick _ due)).mono (by decide)
  wait := .inl (nextEvent_wait s)
  run := .inr ⟨_, _, rfl⟩

theorem runsNothing_unrecognized (s : State) (input : TickInput) (f : Trap) (due : Bool) :
    RunsNothing s (((s.entered input).raise f).endTick due) where
  frame := (((entered_sameBut s input).append (sameBut_raise _ f)).append
    (sameBut_endTick _ due)).mono (by decide)
  wait := .inl (entered_wait s input)
  run := .inr ⟨_, _, rfl⟩

/-- The step ran `i`, to the state `u` before the end of the Tick. -/
structure Runs (s : State) (input : TickInput) (w : Word) (i : Instr) (u t : State) : Prop where
  runsNext : RunsNext s input
  fetched : s.memReadWord s.pc.toNat = .ok w
  decoded : decodeWord w = .ok i
  executed : exec i (s.entered input) = .next u
  ended : t = u.endTick input.timerDue

theorem sameBut_renderAck (s : State) : SameBut [.DIRTY, .renderCount] s s.renderAck := by
  unfold State.renderAck
  split
  · exact (sameBut_dirty s false).append (sameBut_renderCount _ _)
  · exact sameBut_rfl _ s

/-- `step_cases` with the Ticks that run no instruction taken together. -/
theorem step_runs_or {s t : State} (h : step s = .next t) :
    RunsNothing s t ∨ (∃ input w i u, Runs s input w i u t) ∨
    (s.nextEvent.1 = .renderAck ∧ SameBut [.DIRTY, .renderCount, .hostQueue] s t) ∨
    (∃ rom font, s.nextEvent.1 = .reset rom font ∧ t.wait = .idle ∧ t.run = .running) := by
  rcases step_cases h with ⟨input, -, -, rfl⟩ | ⟨input, r, -, -, -, rfl⟩ |
    ⟨input, f, -, -, rfl⟩ | ⟨input, w, e, -, -, -, rfl⟩ |
    ⟨input, w, i, u, hruns, hw, hi, hu, ht⟩ | ⟨he, rfl⟩ | ⟨rom, font, he, -, rfl⟩
  · exact .inl (runsNothing_terminal s)
  · exact .inl (runsNothing_waiting s input r _)
  · exact .inl (runsNothing_fetchFault s input f _)
  · exact .inl (runsNothing_unrecognized s input _ _)
  · exact .inr (.inl ⟨input, w, i, u, hruns, hw, hi, hu, ht⟩)
  · have hframe := (sameBut_nextEvent s).append (sameBut_renderAck s.nextEvent.2)
    exact .inr (.inr (.inl ⟨he, hframe.mono (by decide)⟩))
  · exact .inr (.inr (.inr ⟨rom, font, he, rfl, rfl⟩))

/-- A part that neither the entry nor the end of a Tick writes is what the instruction makes of it. -/
theorem Runs.agrees_of_exec {s t u : State} {input : TickInput} {w : Word} {i : Instr}
    (h : Runs s input w i u t) {p : Part} (hp : p ∉ [.pc, .K, .rnd, .tone, .instrCount, .hostQueue])
    (hp' : p ∉ [.DT, .ST, .tone]) (hu : Agrees (s.entered input) u p) : Agrees s t p := by
  rw [h.ended]
  exact ((entered_sameBut s input p hp).trans hu).trans (sameBut_endTick u _ p hp')

/-- The word of a `JMP` that finishes the run stands at its target (R92). -/
theorem exec_jmp_finishes {nnn : Addr} {s t : State} (h : exec (.jmp nnn) s = .next t)
    (hrun : s.run = .running) (hfin : t.run = .finished) :
    s.memReadWord nnn.toNat = .ok (encodeWord (.jmp nnn)) ∧ t.pc = addrToWord nnn := by
  rw [exec_jmp] at h
  cases h
  refine ⟨?_, rfl⟩
  by_contra hother
  rw [← State.peekWord_eq_some_iff] at hother
  simp only [if_neg hother, hrun] at hfin
  cases hfin

end Sys2Proof.Machine
end

section
/-!
PROOF. Rules about the whole machine (10_state.md section 6, 46_keypad.md R154, 60_exceptions.md
section 5).
-/

open Sys2Proof Sys2Proof.Machine

/-- Settles O23: a Tick that runs no instruction keeps DIRTY, and an instruction only sets it. -/
theorem onlyRenderAckOrResetClearsDirty : Obligations.OnlyRenderAckOrResetClearsDirty := by
  unfold Obligations.OnlyRenderAckOrResetClearsDirty
  intro s t hstep hset hclear
  rcases step_runs_or hstep with hnothing | ⟨input, w, i, u, hruns⟩ | ⟨he, -⟩ | ⟨rom, font, he, -⟩
  · rw [hnothing.frame .DIRTY (by decide), hset] at hclear
    cases hclear
  · have hentered : (s.entered input).dirty = true := by
      rw [entered_sameBut s input .DIRTY (by decide), hset]
    rw [hruns.ended, State.endTick_dirty, exec_keeps_dirty hruns.executed hentered] at hclear
    cases hclear
  · exact .inl he
  · exact .inr ⟨rom, font, he⟩

/-- Settles O24: only an instruction changes a cell, and one that does sets DIRTY or halts. -/
theorem changedFramebufferIsDirtyOrHalted : Obligations.ChangedFramebufferIsDirtyOrHalted := by
  unfold Obligations.ChangedFramebufferIsDirtyOrHalted
  intro s t hstep hno hfb
  rcases step_runs_or hstep with hnothing | ⟨input, w, i, u, hruns⟩ | ⟨-, hframe⟩ |
    ⟨rom, font, he, -⟩
  · exact absurd (hnothing.frame .FB (by decide)) hfb
  · have hchanged : ¬Agrees (s.entered input) u .FB :=
      fun hsame => hfb (hruns.agrees_of_exec (by decide) (by decide) hsame)
    rw [hruns.ended, State.endTick_dirty, State.endTick_run]
    exact exec_changed_fb hruns.executed hchanged
  · exact absurd (hframe .FB (by decide)) hfb
  · exact absurd he (hno rom font)

/-- Settles O25: a Tick that runs no instruction enters no wait, and of the instructions only `WAITK`
does. -/
theorem onlyWaitkEntersTheWait : Obligations.OnlyWaitkEntersTheWait := by
  unfold Obligations.OnlyWaitkEntersTheWait
  intro s t r hstep hidle hwait
  rcases step_runs_or hstep with hnothing | ⟨input, w, i, u, hruns⟩ | ⟨-, hframe⟩ |
    ⟨rom, font, -, hidle', -⟩
  · rcases hnothing.wait with hsame | hidle'
    · cases hwait.symm.trans (hsame.trans hidle)
    · cases hwait.symm.trans hidle'
  · rw [hruns.ended, State.endTick_wait] at hwait
    have hi := exec_enters_wait hruns.executed ((entered_wait s input).trans hidle) hwait
    exact ⟨input, w, hruns.runsNext, hruns.fetched, hi ▸ hruns.decoded⟩
  · rw [hframe .WAIT (by decide), hidle] at hwait
    cases hwait
  · cases hwait.symm.trans hidle'

/-- Settles O26: of the statuses an instruction can end the run with only the self-jump's is Finished;
the word that stands at the target is the one fetched, as no other word decodes to that `JMP`. -/
theorem onlySelfJumpFinishes : Obligations.OnlySelfJumpFinishes := by
  unfold Obligations.OnlySelfJumpFinishes
  intro s t hstep hrun hfin
  rcases step_runs_or hstep with hnothing | ⟨input, w, i, u, hruns⟩ | ⟨-, hframe⟩ |
    ⟨rom, font, -, -, hrun'⟩
  · rcases hnothing.run with hsame | ⟨c, info, hhalt⟩
    · cases hfin.symm.trans (hsame.trans hrun)
    · cases hfin.symm.trans hhalt
  · obtain ⟨hnext, hfetch, hdecode, hexec, rfl⟩ := hruns
    rw [State.endTick_run] at hfin
    have hentered : (s.entered input).run = .running := (entered_run s input).trans hrun
    rcases exec_run hexec with hsame | hends
    · cases hfin.symm.trans (hsame.trans hentered)
    · rw [hfin] at hends
      cases hends with
      | selfJump nnn =>
        obtain ⟨hword, hpc⟩ := exec_jmp_finishes hexec hentered hfin
        rw [memReadWord_congr (entered_mem s input), encodeWord_of_decodeWord hdecode] at hword
        refine ⟨input, nnn, w, hnext, hfetch, hdecode, hword, ?_, ?_⟩
        · rw [State.endTick_pc, hpc, addrToWord_toNat]
        · rw [State.endTick_wait, exec_sameBut hexec .WAIT (by simp [partsOf]), entered_wait]
          exact hnext.2.1
  · rw [hframe .RUN (by decide), hrun] at hfin
    cases hfin
  · cases hfin.symm.trans hrun'

end

section
/-!
PROOF. Control transfers (41_system_flow.md R91 to R94).
-/

open Sys2Proof Sys2Proof.Machine

/-- Settles O32: the entry is read and SP lowered; the array is not touched. -/
theorem retPopsTheLastEntry : Obligations.RetPopsTheLastEntry := by
  unfold Obligations.RetPopsTheLastEntry
  intro s j hsp
  exact ⟨_, exec_ret_live s j hsp, rfl, rfl,
    ((sameBut_sp s ⟨j.val, by omega⟩).append (sameBut_pc _ s.stk[j.val])).mono (by decide)⟩

/-- Settles O33: one entry of the array is set, the others are read as before. -/
theorem callPushesTheReturnAddress : Obligations.CallPushesTheReturnAddress := by
  unfold Obligations.CallPushesTheReturnAddress
  intro s nnn j hsp
  refine ⟨_, exec_call_room nnn s (by omega), addrToWord_toNat nnn, congrArg (· + 1) hsp, ?_,
    fun k hk => ?_, ?_⟩
  · rw [Vector.getElem_set, if_pos hsp]
  · have hne : s.sp.val ≠ k.val := fun he => hk (Fin.ext (by omega))
    rw [Vector.getElem_set, if_neg hne]
  · exact (((sameBut_stk s _).append (sameBut_sp _ ⟨s.sp.val + 1, by omega⟩)).append
      (sameBut_pc _ (addrToWord nnn))).mono (by decide)

/-- Settles O35: the push and the pop that fail, each with its trap. -/
theorem stackLimitsHalt : Obligations.StackLimitsHalt := by
  unfold Obligations.StackLimitsHalt
  exact ⟨fun s hsp => ⟨_, exec_ret_empty s hsp, rfl, sameBut_raise s _⟩,
    fun s nnn hsp => ⟨_, exec_call_full nnn s hsp, rfl, sameBut_raise s _⟩⟩

end

section
/-!
SUPPORT. `CALL` and `RET` one after the other (41_system_flow.md R91, R93).
-/

namespace Sys2Proof.Machine

/-- A `RET` after a `CALL` leaves only the entry that the call wrote. -/
theorem exec_ret_after_call (nnn : Addr) (s : State) (h : s.sp.val < 16) :
    ∃ t, exec (.call nnn) s = .next t ∧
      exec .ret t = .next { s with stk := s.stk.set s.sp.val s.pc h } := by
  refine ⟨_, exec_call_room nnn s h, (exec_ret_live _ ⟨s.sp.val, h⟩ rfl).trans ?_⟩
  simp only [Vector.getElem_set_self]

end Sys2Proof.Machine
end

section
/-!
PROOF. `RET` after `CALL`, and the two jumps (41_system_flow.md R91 to R94).
-/

open Sys2Proof Sys2Proof.Machine

/-- Settles O34: the two rules composed; every entry but the one written is read as before. -/
theorem retAfterCallResumes : Obligations.RetAfterCallResumes := by
  unfold Obligations.RetAfterCallResumes
  intro s nnn hsp
  obtain ⟨t, hcall, hret⟩ := exec_ret_after_call nnn s hsp
  refine ⟨t, _, hcall, hret, rfl, rfl, fun k hk => ?_, sameBut_stk s _⟩
  rw [Vector.getElem_set, if_neg hk.symm]

/-- Settles O36: the rule as an equation; the peek at the target gives the word a read would give. -/
theorem jmpSetsPcAndDetectsTheSelfJump : Obligations.JmpSetsPcAndDetectsTheSelfJump := by
  unfold Obligations.JmpSetsPcAndDetectsTheSelfJump
  intro s nnn
  have hexec := exec_jmp nnn s
  refine ⟨_, hexec, addrToWord_toNat nnn, fun hself => ?_, fun hother => ?_, exec_sameBut hexec⟩
  · exact if_pos ((s.peekWord_eq_some_iff _ _).mpr hself)
  · exact if_neg fun hpeek => hother ((s.peekWord_eq_some_iff _ _).mp hpeek)

/-- Settles O37: the sum of a byte and a 12-bit address fits 16 bits. -/
theorem jmpvZeroAddsVZero : Obligations.JmpvZeroAddsVZero := by
  unfold Obligations.JmpvZeroAddsVZero
  intro s nnn
  refine ⟨_, exec_jmpv0 nnn s, ?_, sameBut_pc s _⟩
  have := nnn.isLt
  have := (s.reg reg0).isLt
  exact (BitVec.toNat_ofNat _ 16).trans (Nat.mod_eq_of_lt (by omega))

end

section
/-!
SUPPORT. The rules that write a flag and a result (43_load_alu.md R116 to R120), the flags as numbers
(10_state.md R11), and the remaining rules of the loads, the index and the timers as equations.
-/

namespace Sys2Proof.Machine

theorem exec_add (x y : Nibble) (s : State) :
    exec (.add x y) s = .next (s.writeFlagThenResult x (carryFlag (s.reg x) (s.reg y))
      (BitVec.ofNat 8 ((s.reg x).toNat + (s.reg y).toNat))) := rfl

theorem exec_sub (x y : Nibble) (s : State) :
    exec (.sub x y) s = .next (s.writeFlagThenResult x (greaterFlag (s.reg x) (s.reg y))
      (BitVec.ofNat 8 ((s.reg x).toNat + 256 - (s.reg y).toNat))) := rfl

theorem exec_subn (x y : Nibble) (s : State) :
    exec (.subn x y) s = .next (s.writeFlagThenResult x (greaterFlag (s.reg y) (s.reg x))
      (BitVec.ofNat 8 ((s.reg y).toNat + 256 - (s.reg x).toNat))) := rfl

theorem exec_shr (x y : Nibble) (s : State) :
    exec (.shr x y) s =
      .next (s.writeFlagThenResult x (lowBitFlag (s.reg x)) (s.reg x >>> 1)) := rfl

theorem exec_shl (x y : Nibble) (s : State) :
    exec (.shl x y) s =
      .next (s.writeFlagThenResult x (highBitFlag (s.reg x)) (s.reg x <<< 1)) := rfl

theorem exec_rnd (x : Nibble) (kk : Byte) (s : State) :
    exec (.rnd x kk) s = .next (s.setReg x (s.rnd &&& kk)) := rfl

theorem exec_addix (x : Nibble) (s : State) :
    exec (.addix x) s =
      .next { s with I := BitVec.ofNat 16 (s.I.toNat + (s.reg x).toNat) } := rfl

theorem exec_font (x : Nibble) (s : State) :
    exec (.font x) s =
      .next { s with I := BitVec.ofNat 16 ((s.reg x).toNat * Config.glyphBytes) } := rfl

theorem exec_lddt (x : Nibble) (s : State) : exec (.lddt x) s = .next (s.setReg x s.DT) := rfl

theorem exec_stdt (x : Nibble) (s : State) :
    exec (.stdt x) s = .next { s with DT := s.reg x } := rfl

theorem exec_stst (x : Nibble) (s : State) :
    exec (.stst x) s = .next { s with ST := s.reg x } := rfl

/-! ### Flags (R11, R116 to R120) -/

theorem flagByte_toNat (b : Bool) : (flagByte b).toNat = if b then 1 else 0 := by
  cases b <;> rfl

theorem carryFlag_toNat (vx vy : Byte) :
    (carryFlag vx vy).toNat = if vx.toNat + vy.toNat > 255 then 1 else 0 := by
  simp only [carryFlag, flagByte_toNat, decide_eq_true_eq, gt_iff_lt]

theorem greaterFlag_toNat (a b : Byte) :
    (greaterFlag a b).toNat = if a.toNat > b.toNat then 1 else 0 := by
  simp only [greaterFlag, flagByte_toNat, decide_eq_true_eq, gt_iff_lt]

theorem lowBitFlag_toNat (v : Byte) : (lowBitFlag v).toNat = v.toNat % 2 := by
  rw [lowBitFlag, flagByte_toNat, BitVec.getLsbD, Nat.testBit_zero]
  simp only [decide_eq_true_eq]
  split <;> omega

theorem highBitFlag_toNat (v : Byte) : (highBitFlag v).toNat = v.toNat / 128 := by
  have := v.isLt
  rw [highBitFlag, flagByte_toNat, BitVec.getLsbD, Nat.testBit_eq_decide_div_mod_eq]
  simp only [decide_eq_true_eq]
  split <;> omega

/-! ### The two bytes written -/

/-- The outcome is a next state in which register `x` holds `v`, VF holds `flag` unless it is `x`, and
every other register and every other part is as in `s`. -/
def SetsRegAndFlag (o : Host.Outcome State Fault Refusal) (x : Nibble) (v flag : Nat)
    (s : State) : Prop :=
  ∃ t, o = .next t ∧ (t.reg x).toNat = v ∧ (x ≠ regF → (t.reg regF).toNat = flag) ∧
    RegsSameBut [x, regF] s t ∧ SameBut [.V] s t

theorem writeFlagThenResult_setsRegAndFlag (s : State) (x : Nibble) {flag result : Byte}
    {v f : Nat} (hv : result.toNat = v) (hf : flag.toNat = f) :
    SetsRegAndFlag (.next (s.writeFlagThenResult x flag result)) x v f s := by
  refine ⟨_, rfl, ?_, fun hx => ?_, regsSameBut_writeFlagThenResult s x flag result,
    sameBut_writeFlagThenResult s x flag result⟩
  · rw [State.reg_writeFlagThenResult, if_pos rfl, hv]
  · rw [State.reg_writeFlagThenResult, if_neg (Ne.symm hx), if_pos rfl, hf]

theorem shiftRight_one_toNat (v : Byte) : (v >>> 1).toNat = v.toNat / 2 := by
  rw [BitVec.toNat_ushiftRight, Nat.shiftRight_eq_div_pow]

theorem shiftLeft_one_toNat (v : Byte) : (v <<< 1).toNat = 2 * v.toNat % 256 := by
  rw [BitVec.toNat_shiftLeft, Nat.shiftLeft_eq, Nat.mul_comm]

end Sys2Proof.Machine
end

section
/-!
PROOF. Arithmetic, shifts, the random byte, the index and the timers (43_load_alu.md, 44_index_memory.md
section 1, 47_timers.md).
-/

open Sys2Proof Sys2Proof.Machine

/-- Settles O41: a flag write before a result write, of the carry and the reduced sum. -/
theorem addGivesSumAndCarry : Obligations.AddGivesSumAndCarry := by
  unfold Obligations.AddGivesSumAndCarry
  intro x y s
  rw [exec_add]
  exact writeFlagThenResult_setsRegAndFlag s x (BitVec.toNat_ofNat _ 8) (carryFlag_toNat _ _)

/-- Settles O42: as the sum, with the strict comparison for the carry. -/
theorem subtractionsGiveDifferenceAndFlag : Obligations.SubtractionsGiveDifferenceAndFlag := by
  unfold Obligations.SubtractionsGiveDifferenceAndFlag
  intro x y s
  rw [exec_sub, exec_subn]
  exact ⟨writeFlagThenResult_setsRegAndFlag s x (BitVec.toNat_ofNat _ 8) (greaterFlag_toNat _ _),
    writeFlagThenResult_setsRegAndFlag s x (BitVec.toNat_ofNat _ 8) (greaterFlag_toNat _ _)⟩

/-- Settles O43: as the sum, with the bit shifted out for the carry. -/
theorem shiftsMoveOneBitOut : Obligations.ShiftsMoveOneBitOut := by
  unfold Obligations.ShiftsMoveOneBitOut
  intro x y s
  rw [exec_shr, exec_shl]
  exact ⟨writeFlagThenResult_setsRegAndFlag s x (shiftRight_one_toNat _) (lowBitFlag_toNat _),
    writeFlagThenResult_setsRegAndFlag s x (shiftLeft_one_toNat _) (highBitFlag_toNat _)⟩

/-- Settles O44: one register write, of a value whose bits the library gives. -/
theorem rndMasksTheTicksByte : Obligations.RndMasksTheTicksByte := by
  unfold Obligations.RndMasksTheTicksByte
  intro x kk s
  rw [exec_rnd]
  obtain ⟨t, ht, hregs, hframe, hbits⟩ :=
    (setReg_setsOnlyReg s x (s.rnd &&& kk)).bits fun _ => BitVec.getLsbD_and
  exact ⟨t, ht, hbits, hregs, hframe⟩

/-- Settles O46: one write of I each; five times a byte fits 16 bits. -/
theorem addixAndFontComputeTheIndex : Obligations.AddixAndFontComputeTheIndex := by
  unfold Obligations.AddixAndFontComputeTheIndex
  refine fun x s => ⟨⟨_, exec_addix x s, BitVec.toNat_ofNat _ 16, sameBut_I s _⟩,
    ⟨_, exec_font x s, ?_, sameBut_I s _⟩⟩
  have := (s.reg x).isLt
  simp only [BitVec.toNat_ofNat, Config.glyphBytes]
  omega

/-- Settles O58: one write each. -/
theorem timerInstructionsMoveTheTimers : Obligations.TimerInstructionsMoveTheTimers := by
  unfold Obligations.TimerInstructionsMoveTheTimers
  refine fun x s => ⟨?_, ⟨_, exec_stdt x s, rfl, sameBut_DT s _⟩,
    ⟨_, exec_stst x s, rfl, sameBut_ST s _⟩⟩
  rw [exec_lddt]
  exact setReg_setsOnlyReg s x s.DT

/-- Settles O56: a conditional skip on the key, or the trap of an index above 15. -/
theorem keySkipsTestTheKey : Obligations.KeySkipsTestTheKey := by
  unfold Obligations.KeySkipsTestTheKey
  refine fun x s => ⟨fun hx => ?_, fun hx => ?_, fun hx => ?_⟩
  · rw [exec_skp_key x s (by omega)]
    exact skipIf_skipsExactlyIf s Iff.rfl
  · rw [exec_sknp_key x s (by omega)]
    have hskip := skipIf_skipsExactlyIf s (c := !s.keys.getLsbD (s.reg x).toNat)
      (p := ¬s.keys.getLsbD (s.reg x).toNat = true) (by simp)
    simpa only [SkipsExactlyIf, ite_not] using hskip
  · exact ⟨_, _, exec_skp_trap x s hx, exec_sknp_trap x s hx, rfl, byteToWord_toNat _,
      sameBut_raise s _⟩

end

section
/-!
SUPPORT. Group F words as the rules write them (30_encoding.md R64), and a step by the next state of its
instruction (40_engine_cycle.md R81).
-/

namespace Sys2Proof

/-- A word of group F with its fixed digits in front, as the rules write it. -/
theorem ofNat_eq_formatXK_F (x : Nibble) (kk : Byte) :
    BitVec.ofNat 16 (0xF000 + kk.toNat + x.toNat * 256) = formatXK 0xF x kk := by
  have h : 0xF000 + kk.toNat + x.toNat * 256 = 0xF * 4096 + x.toNat * 256 + kk.toNat := by omega
  rw [h]
  rfl

end Sys2Proof

namespace Sys2Proof.Machine

/-- The step that fetches the word of `i`, by what the rule of `i` makes of the entered state. -/
theorem step_of_encodeWord {s u : State} {input : TickInput} {i : Instr} (h : RunsNext s input)
    (hfetch : s.memReadWord s.pc.toNat = .ok (encodeWord i))
    (hexec : exec i (s.entered input) = .next u) :
    step s = .next (u.endTick input.timerDue) := by
  rw [step_decoded h hfetch (decodeWord_encodeWord i), hexec, onNext_next]

end Sys2Proof.Machine
end

section
/-!
PROOF. `WAITK`, and the timer step after the instruction (46_keypad.md R152, 40_engine_cycle.md section
2).
-/

open Sys2Proof Sys2Proof.Machine

/-- Settles O57: the word by its group; the rule sets WAIT alone, and the Tick around it keeps the
registers and RUN. -/
theorem waitkEntersTheWait : Obligations.WaitkEntersTheWait := by
  unfold Obligations.WaitkEntersTheWait
  refine fun x s => ⟨?_, ⟨_, exec_waitk x s, rfl, sameBut_wait s _⟩, fun input hruns hfetch => ?_⟩
  · exact (congrArg decodeWord (ofNat_eq_formatXK_F x 0x0A)).trans (decodeWord_encodeWord (.waitk x))
  · refine ⟨_, step_of_encodeWord (i := .waitk x) hruns hfetch (exec_waitk x _), rfl, ?_,
      entered_pc_toNat s input, entered_sameBut s input .V (by decide)⟩
    exact (entered_run s input).trans hruns.1

/-- Settles O59: each rule at the entered state, which holds the timers and registers of before,
followed by a timer step that is due. -/
theorem timerStepFollowsTheInstruction : Obligations.TimerStepFollowsTheInstruction := by
  unfold Obligations.TimerStepFollowsTheInstruction
  intro s input x w hruns hdue hfetch
  have hrun : (s.entered input).run = .running := (entered_run s input).trans hruns.1
  have hframe := entered_sameBut s input
  have hDT : (s.entered input).DT = s.DT := hframe .DT (by decide)
  have hDTstep : (s.entered input).DT.toNat - 1 = s.DT.toNat - 1 := by rw [hDT]
  have hSTstep : (s.entered input).ST.toNat - 1 = s.ST.toNat - 1 := by
    rw [hframe .ST (by decide)]
  have hreg : (s.entered input).reg x = s.reg x := hframe .V (by decide) x
  refine ⟨?_, ?_, ?_⟩
  · rintro rfl
    have hstep := step_of_encodeWord (i := .lddt x) hruns hfetch (exec_lddt x _)
    rw [hdue] at hstep
    refine ⟨_, hstep, ?_, (endTick_due_DT hrun).trans hDTstep, (endTick_due_ST hrun).trans hSTstep⟩
    rw [State.endTick_reg, State.reg_setReg_self, hDT]
  · rintro rfl
    have hstep := step_of_encodeWord (i := .stdt x) hruns hfetch (exec_stdt x _)
    rw [hdue, hreg] at hstep
    exact ⟨_, hstep, endTick_due_DT hrun, (endTick_due_ST hrun).trans hSTstep⟩
  · rintro rfl
    have hstep := step_of_encodeWord (i := .stst x) hruns hfetch (exec_stst x _)
    rw [hdue, hreg] at hstep
    exact ⟨_, hstep, endTick_due_ST hrun, (endTick_due_DT hrun).trans hDTstep,
      endTick_due_tone hrun⟩

end
